-- ==== Sys2Proof/Config.lean ====
section
/-! DEFINITION. The implementation parameters of the block (00_scope.md R7, R8), each at the reference value "this
hardware takes", the bounds computed from them, and what an address that no list names reads as. Machine/Parametric.lean
takes the parameters as an argument (log entry 1).
The spec leaves no result of an instruction open, so there is no free value here. -/

namespace Sys2Proof.Config

/-- Width of TIME and POWER, two's complement (R7). -/
abbrev XLEN : Nat := 32
/-- Width of `pc`, of PROG_LEN and of a label target, unsigned (R7). -/
abbrev PCW : Nat := 16
/-- Width of `steps` and of a RUN budget, unsigned (R7). -/
abbrev STEPW : Nat := 64
/-- Width of a label identifier (R7). -/
abbrev LBLW : Nat := 16
/-- Width of an instruction word (R7, R47). -/
abbrev ILEN : Nat := 4 + XLEN
/-- Greatest program length, one less than `pc` can hold, so that `pc = PROG_LEN` is representable (R7, R8). -/
abbrev MAXLEN : Nat := 2 ^ PCW - 1

/-- Greatest value of a register (10_state.md R15). -/
abbrev maxReg : Int := 2147483647
/-- Least value of a register (10_state.md R15). -/
abbrev minReg : Int := -2147483648
/-- Greatest value of the step counter (40_step_cycle.md R86). -/
abbrev maxSteps : BitVec 64 := 0xFFFFFFFFFFFFFFFF#64

/-- What an instruction-memory slot that no list names holds. DESIGN CHOICE: the spec calls the contents of a slot at or
above PROG_LEN unspecified and never read (20_memory.md R33, 10_state.md R28). Log entry 2. -/
abbrev unlistedWord : BitVec 36 := 0#36

/-- What a label-table entry that no list names is: invalid (10_state.md R28, 70_reset_and_hazards.md R147). -/
abbrev unlistedLabel : Option (BitVec 16) := none

end Sys2Proof.Config
end

