-- ==== Sys2Proof/Word.lean ====
section
/-! DEFINITION. The word types of the block, at the reference widths of 00_scope.md R7 (Config.lean). -/

namespace Sys2Proof

/-- A register value: XLEN bits, two's complement (10_state.md R15). -/
abbrev Word := BitVec 32

/-- A slot index: `pc`, PROG_LEN, a label target; PCW bits, unsigned (10_state.md R18, R24). -/
abbrev SlotIndex := BitVec 16

/-- The step counter and a RUN budget: STEPW bits, unsigned (10_state.md R22, 40_step_cycle.md R90). -/
abbrev StepCount := BitVec 64

/-- A label identifier: LBLW bits, unsigned (20_memory.md R35). -/
abbrev Label := BitVec 16

/-- An instruction word: ILEN bits (30_encoding.md R47). -/
abbrev IWord := BitVec 36

end Sys2Proof
end

