-- ==== Sys2Proof/Syntax.lean ====
section
/-! DEFINITION. The decoded instructions (30_encoding.md R61): one constructor per row of spec/opcode_table.json. -/

namespace Sys2Proof

/-- The two general registers, a closed set (10_state.md R14). -/
inductive Reg where
  /-- Register number 0, `TIME`. -/
  | time
  /-- Register number 1, `POWER`. -/
  | power
  deriving DecidableEq, Repr

/-- A decoded instruction (30_encoding.md R61). -/
inductive Instr where
  /-- `SET r, v` (41_register_ops.md R97). `v` is the signed immediate; WellFormed.lean says it fits XLEN bits. -/
  | set (r : Reg) (v : Int)
  /-- `INC r` (41_register_ops.md R98). -/
  | inc (r : Reg)
  /-- `DECJZ r, l` (42_control_transfer.md R104). -/
  | decjz (r : Reg) (l : Label)
  /-- `GOTO l` (42_control_transfer.md R105). -/
  | goto (l : Label)
  /-- `PRINT` (43_system.md R111). -/
  | print
  /-- `HALT` (43_system.md R112). -/
  | halt
  deriving DecidableEq, Repr

end Sys2Proof
end

