-- ==== Sys2Proof/WellFormed.lean ====
section
/-! DEFINITION. Which instructions the encoding admits. The types of Syntax.lean already bound registers and label
identifiers; the one check left is the range of a SET immediate (30_encoding.md R61: "signed XLEN-bit integer"). -/

namespace Sys2Proof

/-- A signed integer that XLEN bits hold (00_scope.md R9, 10_state.md R15). -/
abbrev inSignedRange (v : Int) : Prop := Config.minReg ≤ v ∧ v ≤ Config.maxReg

/-- The operands of `i` are values its encoding admits (30_encoding.md R51, R61). -/
def Instr.wf : Instr → Bool
  | .set _ v => decide (inSignedRange v)
  | .inc _ => true
  | .decjz _ _ => true
  | .goto _ => true
  | .print => true
  | .halt => true

end Sys2Proof
end

