-- ==== Sys2Proof/Decode.lean ====
section
/-! DEFINITION. The instruction word: its fields, the decoder, the encoder and the opcode map (30_encoding.md R47 to
R62). The instruction memory is addressed by whole word, so there are no bytes and no byte order here (20_memory.md
R41). -/

namespace Sys2Proof

/-- `sext_XLEN` (00_scope.md R9): the signed reading of a register-wide field. -/
abbrev sext (w : Word) : Int := w.toInt

/-- `trunc_XLEN` (00_scope.md R9): the field whose signed reading is `v`, for `v` in the signed range. -/
abbrev trunc (v : Int) : Word := BitVec.ofInt 32 v

/-- `zext` of a label identifier to the operand field (00_scope.md R9, 30_encoding.md R54, R55). -/
def zextLabel (l : Label) : Word := l.setWidth 32

/-- The register number of a register (10_state.md R14, 30_encoding.md R50). -/
def Reg.toBit : Reg → BitVec 1
  | .time => 0#1
  | .power => 1#1

/-- The register a one-bit register number names; both values are valid (30_encoding.md R50). -/
def Reg.ofBit (b : BitVec 1) : Reg := if b = 0#1 then .time else .power

/-- Field `op`, bits 35 to 33 (30_encoding.md R48). -/
def opField (w : IWord) : BitVec 3 := w.extractLsb' 33 3

/-- Field `r`, bit 32 (30_encoding.md R48). -/
def regField (w : IWord) : BitVec 1 := w.extractLsb' 32 1

/-- Field `opd`, bits 31 to 0 (30_encoding.md R48). -/
def opdField (w : IWord) : Word := w.extractLsb' 0 32

/-- `opd[XLEN-1:LBLW]`, which a label operand requires to be zero (30_encoding.md R51, R58). -/
def labelHigh (opd : Word) : BitVec 16 := opd.extractLsb' 16 16

/-- `opd[LBLW-1:0]`, the label identifier (30_encoding.md R51, R58). -/
def labelLow (opd : Word) : Label := opd.extractLsb' 0 16

/-- The word with the three fields given, `(op << 33) | (r << 32) | opd` (30_encoding.md R48, 41_register_ops.md R97). -/
def pack (op : BitVec 3) (r : BitVec 1) (opd : Word) : IWord :=
  BitVec.ofNat 36 (op.toNat * 2 ^ 33 + r.toNat * 2 ^ 32 + opd.toNat)

/-- Why a word is no instruction (30_encoding.md R59). -/
inductive Illegal where
  /-- `op` is 6 or 7. -/
  | reservedOpcode
  /-- `opd` is not zero in INC, PRINT or HALT. -/
  | operandNotZero
  /-- `r` is not zero in GOTO, PRINT or HALT. -/
  | registerNotZero
  /-- `opd[XLEN-1:LBLW]` is not zero in DECJZ or GOTO. -/
  | labelHighNotZero
  deriving DecidableEq, Repr

/-- A register-and-no-operand word: `opd` must be zero (30_encoding.md R53, R58). -/
def decodeInc (r : BitVec 1) (opd : Word) : Except Illegal Instr :=
  if opd ≠ 0 then .error .operandNotZero else .ok (.inc (Reg.ofBit r))

/-- A register-and-label word: the high operand bits must be zero (30_encoding.md R54, R58). -/
def decodeDecjz (r : BitVec 1) (opd : Word) : Except Illegal Instr :=
  if labelHigh opd ≠ 0 then .error .labelHighNotZero else .ok (.decjz (Reg.ofBit r) (labelLow opd))

/-- A label word: `r` and the high operand bits must be zero (30_encoding.md R55, R58). -/
def decodeGoto (r : BitVec 1) (opd : Word) : Except Illegal Instr :=
  if r ≠ 0 then .error .registerNotZero
  else if labelHigh opd ≠ 0 then .error .labelHighNotZero
  else .ok (.goto (labelLow opd))

/-- A word with no operand: `r` and `opd` must be zero (30_encoding.md R56, R58). -/
def decodePlain (i : Instr) (r : BitVec 1) (opd : Word) : Except Illegal Instr :=
  if r ≠ 0 then .error .registerNotZero
  else if opd ≠ 0 then .error .operandNotZero
  else .ok i

/-- `Decode` (30_encoding.md R58): a total function of the word and of nothing else. -/
def decode (w : IWord) : Except Illegal Instr :=
  match (opField w).toNat with
  | 0 => .ok (.set (Reg.ofBit (regField w)) (sext (opdField w)))
  | 1 => decodeInc (regField w) (opdField w)
  | 2 => decodeDecjz (regField w) (opdField w)
  | 3 => decodeGoto (regField w) (opdField w)
  | 4 => decodePlain .print (regField w) (opdField w)
  | 5 => decodePlain .halt (regField w) (opdField w)
  | _ => .error .reservedOpcode

/-- `Encode` (30_encoding.md R61, with the opcode numbers of R49): the word of a well-formed instruction. -/
def encode : Instr → IWord
  | .set r v => pack 0 r.toBit (trunc v)
  | .inc r => pack 1 r.toBit 0
  | .decjz r l => pack 2 r.toBit (zextLabel l)
  | .goto l => pack 3 0 (zextLabel l)
  | .print => pack 4 0 0
  | .halt => pack 5 0 0

/-- One row of the opcode map: `w &&& mask = bits` selects the instruction (30_encoding.md R57). -/
structure OpcodeRow where
  mnemonic : String
  bits : IWord
  mask : IWord
  deriving DecidableEq, Repr

/-- The row of the opcode map an instruction belongs to (30_encoding.md R57). -/
def Instr.row : Instr → OpcodeRow
  | .set _ _ => ⟨"SET", 0x000000000#36, 0xE00000000#36⟩
  | .inc _ => ⟨"INC", 0x200000000#36, 0xEFFFFFFFF#36⟩
  | .decjz _ _ => ⟨"DECJZ", 0x400000000#36, 0xEFFFF0000#36⟩
  | .goto _ => ⟨"GOTO", 0x600000000#36, 0xFFFFF0000#36⟩
  | .print => ⟨"PRINT", 0x800000000#36, 0xFFFFFFFFF#36⟩
  | .halt => ⟨"HALT", 0xA00000000#36, 0xFFFFFFFFF#36⟩

/-- A row selects a word (30_encoding.md R57). -/
def OpcodeRow.selects (row : OpcodeRow) (w : IWord) : Prop := w &&& row.mask = row.bits

/-- The instruction the decoder reads from the number `w` of a word that the opcode table gives `nbits` bits.
An instruction is one 36-bit word (30_encoding.md R47); `w` above `nbits` counts as zero, and a number with a bit at 36
or above is no instruction word (log entry 11). -/
def decodeTableWord (nbits w : Nat) : Option Instr :=
  let v := w % 2 ^ nbits
  if v < 2 ^ Config.ILEN then (decode (BitVec.ofNat 36 v)).toOption else none

end Sys2Proof
end

