-- ==== Sys2Proof/Machine/State.lean ====
section
/-! DEFINITION. The state of the execution unit (10_state.md R13), the reasons a model step can stop, and the state after
power-on reset (10_state.md R28, 70_reset_and_hazards.md R147). -/

namespace Sys2Proof.Machine

/-- The machine's own fault latch, `fault` (10_state.md R23): the codes 0 to 5 of 60_exceptions.md R122, the only legal
values of the field (10_state.md R30). `FaultCode.code` gives the number. -/
inductive FaultCode where
  /-- Code 0: no fault is latched. -/
  | none
  /-- Code 1 (R123). -/
  | unknownLabel
  /-- Code 2 (R124). -/
  | stepLimitExceeded
  /-- Code 3 (R125). -/
  | illegalInstruction
  /-- Code 4 (R127). -/
  | registerOverflow
  /-- Code 5 (R128). -/
  | stepCounterOverflow
  deriving DecidableEq, Repr

/-- The two kinds of event (43_system.md R114). -/
inductive Event where
  /-- An observation: `("TIME", value)`, the value a signed integer (43_system.md R111). -/
  | obs (value : Int)
  /-- The halt event (43_system.md R112). -/
  | halt
  deriving DecidableEq, Repr

/-- A memory addressed by whole entry: the list of the (index, entry) pairs that differ from what an unlisted index holds,
indexes rising (`Memory.wf`). -/
abbrev Memory (α : Type) := List (Nat × α)

/-- Reasons a step of the MODEL stops. There are none: every fault of this machine is latched by `raise` and the
machine goes on to a next state (60_exceptions.md R126, R131), so no meaning and no step answers a fault (log entry 5). -/
inductive Fault
  deriving DecidableEq, Repr

/-- Reasons an instruction has no meaning in the model. -/
inductive Refusal where
  /-- Raised by an arm of `exec` whose instruction has no meaning yet; no arm is such an arm. Safe: the model stops. -/
  | notModelled (mnemonic : String)
  deriving DecidableEq, Repr

/-- The whole state of the block (10_state.md R13), with the output trace of the event port (43_system.md R115). -/
structure State where
  /-- `TIME` = `x[0]` (R14). -/
  time : Word
  /-- `POWER` = `x[1]` (R14). -/
  power : Word
  /-- The program counter, an unsigned slot index (R18). -/
  pc : SlotIndex
  /-- The halted flag (R21). -/
  halted : Bool
  /-- The executed-step counter (R22). -/
  steps : StepCount
  /-- The latched fault (R23). -/
  fault : FaultCode
  /-- The value recorded with the fault (R23). -/
  faultInfo : IWord
  /-- `PROG_LEN`, the length of the loaded program (R24). -/
  progLen : SlotIndex
  /-- The instruction memory, one word a slot (20_memory.md R32). -/
  imem : Memory IWord
  /-- The label table: `some t` is a valid entry with target `t` (20_memory.md R35). -/
  ltab : Memory (Option SlotIndex)
  /-- The events emitted since power-on, oldest first: an output, written by `emit` only and read by no rule
  (43_system.md R115). -/
  trace : List Event
  deriving DecidableEq, Repr

/-- The state after power-on (10_state.md R28, 70_reset_and_hazards.md R147, R148). -/
def State.reset : State where
  time := 0
  power := 0
  pc := 0
  halted := false
  steps := 0
  fault := .none
  faultInfo := 0
  progLen := 0
  imem := []
  ltab := []
  trace := []

end Sys2Proof.Machine
end

