-- ==== Sys2Proof/Machine/Operands.lean ====
section
/-! DEFINITION. Reading what an instruction's operands name at run time: a register (00_scope.md R10) and a label
(42_control_transfer.md R103). The fields of the word are assembled in Decode.lean (30_encoding.md R51). -/

namespace Sys2Proof.Machine

/-- The bits of register `r` (10_state.md R14). -/
def State.reg (s : State) : Reg → Word
  | .time => s.time
  | .power => s.power

/-- `x[r]`, register `r` as a signed integer (00_scope.md R10, 41_register_ops.md R101). -/
def State.x (s : State) (r : Reg) : Int := sext (s.reg r)

/-- The number of register `r`, as a fault records it (60_exceptions.md R127). -/
def regNumber (r : Reg) : Nat := r.toBit.toNat

/-- The entry at index `k`, `d` where the list names none. -/
def Memory.read {α : Type} (d : α) : Memory α → Nat → α
  | [], _ => d
  | (k', v) :: m, k => if k = k' then v else Memory.read d m k

/-- `IFetch(i)` (20_memory.md R33): the word in slot `i`. It never fails and has no side effect. -/
def fetchWord (s : State) (i : SlotIndex) : IWord := Memory.read Config.unlistedWord s.imem i.toNat

/-- `LabelLookup(l)` (20_memory.md R36): the target of label `l`, nothing where its entry is invalid. -/
def labelLookup (s : State) (l : Label) : Option SlotIndex := Memory.read Config.unlistedLabel s.ltab l.toNat

end Sys2Proof.Machine
end

