-- ==== Sys2Proof/Machine/Flags.lean ====
section
/-! DEFINITION. The tests of the machine and its one flag. There are no condition codes: the zero test of DECJZ is used
inside the instruction and stored nowhere, and `halted` is the only flag (10_state.md R21, 41_register_ops.md R99,
R100). -/

namespace Sys2Proof.Machine

/-- The zero test: all XLEN bits are zero (41_register_ops.md R100). -/
def isZero (v : Word) : Bool := v == 0

/-- The register value of an exact result, nothing where XLEN bits cannot hold it: the arithmetic never wraps
(41_register_ops.md R99). -/
def narrow? (n : Int) : Option Word := if inSignedRange n then some (trunc n) else none

/-- Set the halted flag (43_system.md R112, 40_step_cycle.md R84). -/
def State.setHalted (s : State) : State := { s with halted := true }

end Sys2Proof.Machine
end

