-- ==== Sys2Proof/Machine/Ops.lean ====
section
/-! DEFINITION. The named operations over memory, registers, `pc`, the step counter, the event trace and the fault latch:
`raise` (60_exceptions.md R126), which takes an exception, and `rewind`, which is the only way back (R132). -/

namespace Sys2Proof.Machine

/-- The memory with entry `v` at index `k`; an entry equal to `d`, what an unlisted index holds, is not listed. -/
def Memory.write {α : Type} [DecidableEq α] (d : α) : Memory α → Nat → α → Memory α
  | [], k, v => if v = d then [] else [(k, v)]
  | (k', v') :: m, k, v =>
    if k < k' then if v = d then (k', v') :: m else (k, v) :: (k', v') :: m
    else if k = k' then if v = d then m else (k, v) :: m
    else (k', v') :: Memory.write d m k v

/-- The memory that holds the entries of the list from index `k` on, and nothing else. -/
def Memory.ofListFrom {α : Type} [DecidableEq α] (d : α) : Nat → List α → Memory α
  | _, [] => []
  | k, v :: vs => if v = d then Memory.ofListFrom d (k + 1) vs else (k, v) :: Memory.ofListFrom d (k + 1) vs

/-- The canonical form of a memory of `n` entries: indexes rising and below `n`, no entry equal to `d`, what an unlisted
index holds. -/
abbrev Memory.wf {α : Type} (d : α) (n : Nat) (m : Memory α) : Prop :=
  m.Pairwise (fun a b => a.1 < b.1) ∧ ∀ c ∈ m, c.1 < n ∧ c.2 ≠ d

/-- Both memories are in canonical form: MAXLEN slots (00_scope.md R7), 2^LBLW label entries (20_memory.md R31). -/
abbrev State.memoryWf (s : State) : Prop :=
  Memory.wf Config.unlistedWord Config.MAXLEN s.imem ∧ Memory.wf Config.unlistedLabel (2 ^ Config.LBLW) s.ltab

/-- Register `r` becomes `v` (00_scope.md R10). -/
def State.setReg (s : State) (r : Reg) (v : Word) : State :=
  match r with
  | .time => { s with time := v }
  | .power => { s with power := v }

/-- `pc <- t` (00_scope.md R10). -/
def State.setPc (s : State) (t : SlotIndex) : State := { s with pc := t }

/-- `pc <- pc + 1` (10_state.md R19). In a step it never wraps, since `pc < PROG_LEN` (R20, log entry 8). -/
def State.advance (s : State) : State := s.setPc (s.pc + 1)

/-- `steps <- steps + 1` (40_step_cycle.md R86). -/
def State.countStep (s : State) : State := { s with steps := s.steps + 1 }

/-- `emit e`: append one event to the output trace (43_system.md R115). -/
def State.emit (s : State) (e : Event) : State := { s with trace := s.trace ++ [e] }

/-- The number of a fault code (60_exceptions.md R122). -/
def FaultCode.code : FaultCode → BitVec 3
  | .none => 0
  | .unknownLabel => 1
  | .stepLimitExceeded => 2
  | .illegalInstruction => 3
  | .registerOverflow => 4
  | .stepCounterOverflow => 5

/-- `raise F(info)`, the fault entry (60_exceptions.md R126): latch the code and the low ILEN bits of `info`, write
nothing else. There is no handler, and control goes nowhere. -/
def raise (c : FaultCode) (info : Nat) (s : State) : State :=
  { s with fault := c, faultInfo := BitVec.ofNat 36 info }

/-- What power-on, LOAD and RESET share, in place of a return from exception (60_exceptions.md R132): `pc`, `halted`,
`steps`, `fault` and `fault_info` go back to 0 (70_reset_and_hazards.md R150, R154). -/
def rewind (s : State) : State :=
  { s with pc := 0, halted := false, steps := 0, fault := .none, faultInfo := 0 }

/-- `x[r] <- x[r] + d; pc <- pc + 1`, or RegisterOverflow(r) with nothing written where XLEN bits cannot hold the result
(41_register_ops.md R98, R99; 42_control_transfer.md R104; 60_exceptions.md R127). -/
def addTo (r : Reg) (d : Int) (s : State) : State :=
  match narrow? (s.x r + d) with
  | some v => (s.setReg r v).advance
  | none => raise .registerOverflow (regNumber r) s

/-- `pc <- Resolve(l)`: the target, or UnknownLabel(l) where the label's entry is invalid (42_control_transfer.md R103). -/
def jump (l : Label) (s : State) : State :=
  match labelLookup s l with
  | some t => s.setPc t
  | none => raise .unknownLabel l.toNat s

end Sys2Proof.Machine
end

