-- ==== Sys2Proof/Machine/Cycle.lean ====
section
/-! DEFINITION. What a step does before the instruction's own transition (40_step_cycle.md R82 to R87), and the placing
of a word where the next step fetches. -/

namespace Sys2Proof.Machine

/-- What the common stages of a step lead to. -/
inductive Issue where
  /-- The step ends in state `s`; no instruction executes. -/
  | done (s : State)
  /-- Instruction `i` executes at state `s`, in which the step is counted. -/
  | execute (i : Instr) (s : State)
  deriving DecidableEq, Repr

/-- The fifth and sixth stages (40_step_cycle.md R86, R87): count the step and decode the fetched word `w`; an illegal
word raises IllegalInstruction(w) (60_exceptions.md R125). -/
def countAndDecode (w : IWord) (s : State) : Issue :=
  match decode w with
  | .ok i => .execute i s.countStep
  | .error _ => .done (raise .illegalInstruction w.toNat s.countStep)

/-- The stages of a step up to dispatch, in their order (40_step_cycle.md R82 to R87): the fault latch, the halted flag,
the bounds check with its implicit halt, the fetch, the step counter's overflow, count and decode. -/
def issue (s : State) : Issue :=
  if s.fault ≠ .none then .done s
  else if s.halted then .done s
  else if s.progLen ≤ s.pc then .done s.setHalted
  else if s.steps = Config.maxSteps then .done (raise .stepCounterOverflow 0 s)
  else countAndDecode (fetchWord s s.pc) s

/-- The slot `placeFetchWord` writes: `pc`, but slot 0 where `pc` is 2^PCW - 1, which no program reaches
(00_scope.md R8: a program has at most 2^PCW - 1 slots). -/
def placeSlot (s : State) : SlotIndex := if s.pc = 0xFFFF#16 then 0 else s.pc

/-- `s` with the word `w` in the slot the next step fetches, and everything else that step needs to run it: no latched
fault, not halted, the slot below PROG_LEN, a step counter that can count. It stands for a LOAD (log entry 10). -/
def placeFetchWord (s : State) (nbits w : Nat) : State :=
  { s with
    pc := placeSlot s
    halted := false
    steps := if s.steps = Config.maxSteps then 0 else s.steps
    fault := .none
    faultInfo := 0
    progLen := if placeSlot s < s.progLen then s.progLen else placeSlot s + 1
    imem := Memory.write Config.unlistedWord s.imem (placeSlot s).toNat (BitVec.ofNat 36 (w % 2 ^ nbits)) }

end Sys2Proof.Machine
end

