-- ==== Sys2Proof/Machine/ControlTransfer.lean ====
section
/-! DEFINITION. Control transfer (42_control_transfer.md): DECJZ and GOTO. -/

namespace Sys2Proof.Machine

/-- DECJZ (R104): jump to `l` if register `r` is zero, else subtract one. The label is looked up on the zero branch only
(R106), and a negative register is not zero (R107). -/
def execDecjz (r : Reg) (l : Label) (s : State) : Host.Outcome State Fault Refusal :=
  .next (if isZero (s.reg r) then jump l s else addTo r (-1) s)

/-- GOTO (R105): jump to `l`. -/
def execGoto (l : Label) (s : State) : Host.Outcome State Fault Refusal :=
  .next (jump l s)

end Sys2Proof.Machine
end

