-- ==== Sys2Proof/Machine/RegisterOps.lean ====
section
/-! DEFINITION. The register instructions (41_register_ops.md): SET and INC. -/

namespace Sys2Proof.Machine

/-- SET (R97): `x[r] <- v; pc <- pc + 1`. -/
def execSet (r : Reg) (v : Int) (s : State) : Host.Outcome State Fault Refusal :=
  .next (s.setReg r (trunc v)).advance

/-- INC (R98): add one, or RegisterOverflow(r) at the greatest value. -/
def execInc (r : Reg) (s : State) : Host.Outcome State Fault Refusal :=
  .next (addTo r 1 s)

end Sys2Proof.Machine
end

