-- ==== Sys2Proof/Machine/System.lean ====
section
/-! DEFINITION. The system instructions (43_system.md): PRINT and HALT. -/

namespace Sys2Proof.Machine

/-- PRINT (R111): emit an observation of TIME as a signed integer; `pc <- pc + 1`. -/
def execPrint (s : State) : Host.Outcome State Fault Refusal :=
  .next (s.emit (.obs (s.x .time))).advance

/-- HALT (R112): emit the halt event, set `halted`; `pc` is not written. -/
def execHalt (s : State) : Host.Outcome State Fault Refusal :=
  .next (s.emit .halt).setHalted

end Sys2Proof.Machine
end

