-- ==== Sys2Proof/Machine/Dispatch.lean ====
section
/-! DEFINITION. The dispatch of 40_step_cycle.md R87: one arm per instruction. `exec i s` is the transition of `i` alone,
at a state whose step has been fetched and counted. -/

namespace Sys2Proof.Machine

def exec (i : Instr) (s : State) : Host.Outcome State Fault Refusal :=
  match i with
  | .set r v => Sys2Proof.Machine.execSet r v s
  | .inc r => Sys2Proof.Machine.execInc r s
  | .decjz r l => Sys2Proof.Machine.execDecjz r l s
  | .goto l => Sys2Proof.Machine.execGoto l s
  | .print => Sys2Proof.Machine.execPrint s
  | .halt => Sys2Proof.Machine.execHalt s

end Sys2Proof.Machine
end

