-- ==== Sys2Proof/Machine/Step.lean ====
section
/-! DEFINITION. One step: the STEP command's effect on the state (40_step_cycle.md R81 to R89). -/

namespace Sys2Proof.Machine

/-- STEP (40_step_cycle.md R89): the common stages, then at most one instruction. -/
def step (s : State) : Host.Outcome State Fault Refusal :=
  match issue s with
  | .done t => .next t
  | .execute i t => exec i t

/-- `s` with an instruction's bits `w`, numbered as the opcode table numbers them, where the next step fetches. -/
def State.withFetchWord (s : State) (nbits w : Nat) : State := placeFetchWord s nbits w

end Sys2Proof.Machine
end

