-- ==== Sys2Proof/Machine/Commands.lean ====
section
/-! DEFINITION. The host's side of the block (70_reset_and_hazards.md, 40_step_cycle.md section 2): the commands STEP, RUN,
RESET and LOAD, power-on reset, the snapshot, the event port and the port list. -/

namespace Sys2Proof.Machine

/-- The status a command returns (40_step_cycle.md R96, 70_reset_and_hazards.md R159). -/
inductive Status where
  /-- Completed normally. -/
  | ok
  /-- This command raised the fault. -/
  | fault (c : FaultCode)
  /-- A fault was already latched and the command did nothing. -/
  | faulted (c : FaultCode)
  deriving DecidableEq, Repr

/-- The image that LOAD commits (70_reset_and_hazards.md R149, 30_encoding.md R76): its length is that of `words`; an entry
`(l, t)` of `labels` makes label `l` valid with target `t`. -/
structure Image where
  words : List IWord
  labels : List (Label × SlotIndex)
  deriving DecidableEq, Repr

/-- What the image port can express (70_reset_and_hazards.md R149): at most MAXLEN words, label identifiers distinct. -/
def Image.wf (img : Image) : Bool :=
  decide (img.words.length ≤ Config.MAXLEN) && decide (img.labels.map Prod.fst).Nodup

/-- A command of the host with its arguments (70_reset_and_hazards.md R159). `budget = none` is `budget_valid = 0`. -/
inductive Command where
  | step
  | run (budget : Option StepCount)
  | reset (seedTime seedPower : Word)
  | load (image : Image)
  deriving DecidableEq, Repr

/-- The label table that holds the entries of the list, every other entry invalid (70_reset_and_hazards.md R150). -/
def labelTable : List (Label × SlotIndex) → Memory (Option SlotIndex)
  | [] => []
  | (l, t) :: entries => Memory.write Config.unlistedLabel (labelTable entries) l.toNat (some t)

/-- LOAD (70_reset_and_hazards.md R150): the image replaces program and label table whole, and the run is rewound; TIME
and POWER are not written (R151), nothing is validated (R153), no event is emitted. -/
def loadImage (img : Image) (s : State) : State :=
  { rewind s with
    progLen := BitVec.ofNat 16 img.words.length
    imem := Memory.ofListFrom Config.unlistedWord 0 img.words
    ltab := labelTable img.labels }

/-- RESET (70_reset_and_hazards.md R154): the registers take the seeds and the run is rewound; program and label table
stay. -/
def resetRegs (seedTime seedPower : Word) (s : State) : State :=
  { rewind s with time := seedTime, power := seedPower }

/-- Power-on reset, from any state and at any time (70_reset_and_hazards.md R147). -/
def powerOn (_ : State) : State := State.reset

/-- The state one step leads to. `step` answers a next state from every state (Laws/Step.lean), so the last arm is never
taken. -/
def stepped (s : State) : State :=
  match step s with
  | .next t => t
  | _ => s

/-- The status of a STEP from `s` to `t` (40_step_cycle.md R82, R88, R96). -/
def stepStatus (s t : State) : Status :=
  if s.fault ≠ .none then .faulted s.fault else if t.fault ≠ .none then .fault t.fault else .ok

/-- What one iteration of RUN's loop leads to, over states of type `σ`. -/
inductive Iteration (σ : Type) where
  /-- RUN returns. -/
  | returns (s : σ) (st : Status)
  /-- The loop goes on from `s`. -/
  | again (s : σ)
  deriving DecidableEq, Repr

/-- The budget is supplied and used up (40_step_cycle.md R91). -/
def budgetSpent (budget : Option StepCount) (s : State) : Bool :=
  match budget with
  | none => false
  | some b => decide (b ≤ s.steps)

/-- The number RUN records with StepLimitExceeded (60_exceptions.md R124). -/
def budgetValue (budget : Option StepCount) : Nat :=
  match budget with
  | none => 0
  | some b => b.toNat

/-- One iteration of RUN's loop (40_step_cycle.md R92): the fault latch, the halted flag, the budget check, one STEP. -/
def runIteration (budget : Option StepCount) (s : State) : Iteration State :=
  if s.fault ≠ .none then .returns s (.faulted s.fault)
  else if s.halted then .returns s .ok
  else if budgetSpent budget s then
    .returns (raise .stepLimitExceeded (budgetValue budget) s) (.fault .stepLimitExceeded)
  else if (stepped s).fault ≠ .none then .returns (stepped s) (.fault (stepped s).fault)
  else .again (stepped s)

/-- RUN cut off after `n` iterations of its loop (40_step_cycle.md R92): the state and status it returns, nothing where it
has not returned yet. -/
def runFor : Nat → Option StepCount → State → Option (State × Status)
  | 0, _, _ => none
  | n + 1, budget, s =>
    match runIteration budget s with
    | .returns t st => some (t, st)
    | .again t => runFor n budget t

/-- A command cut off after `n` iterations; only RUN has any (70_reset_and_hazards.md R170). -/
def Command.perform (n : Nat) (c : Command) (s : State) : Option (State × Status) :=
  match c with
  | .step => some (stepped s, stepStatus s (stepped s))
  | .run budget => runFor n budget s
  | .reset t p => some (resetRegs t p s, .ok)
  | .load img => some (loadImage img s, .ok)

/-- Command `c`, presented at `s`, completes at `t` with status `st`. A RUN that never returns completes at no state
(40_step_cycle.md R95). -/
def Command.completes (c : Command) (s t : State) (st : Status) : Prop := ∃ n, c.perform n s = some (t, st)

/-- The command never completes (40_step_cycle.md R95). -/
def Command.diverges (c : Command) (s : State) : Prop := ∀ n, c.perform n s = none

/-- The snapshot outputs (70_reset_and_hazards.md R157, R158), read between commands. -/
structure Snapshot where
  time_q : BitVec 32
  power_q : BitVec 32
  pc_q : BitVec 16
  halted_q : BitVec 1
  steps_q : BitVec 64
  fault_q : BitVec 3
  fault_info_q : BitVec 36
  prog_len_q : BitVec 16
  deriving DecidableEq, Repr

/-- The snapshot of a state (70_reset_and_hazards.md R157). Reading it changes nothing. -/
def State.snapshot (s : State) : Snapshot where
  time_q := s.time
  power_q := s.power
  pc_q := s.pc
  halted_q := BitVec.ofBool s.halted
  steps_q := s.steps
  fault_q := s.fault.code
  fault_info_q := s.faultInfo
  prog_len_q := s.progLen

/-- One beat on the event port (43_system.md R115). -/
structure EventBeat where
  evt_valid : BitVec 1
  evt_kind : BitVec 2
  evt_value : BitVec 32
  deriving DecidableEq, Repr

/-- The beat of an event (43_system.md R115). -/
def Event.beat : Event → EventBeat
  | .obs v => ⟨1, 1, trunc v⟩
  | .halt => ⟨1, 2, 0⟩

/-- The number of a status (70_reset_and_hazards.md R159). -/
def Status.number : Status → BitVec 2
  | .ok => 0
  | .fault _ => 1
  | .faulted _ => 2

/-- `status_code`: the fault code that goes with FAULT and FAULTED, else 0 (70_reset_and_hazards.md R158). -/
def Status.faultCode : Status → BitVec 3
  | .ok => 0
  | .fault c => c.code
  | .faulted c => c.code

/-- The input ports (70_reset_and_hazards.md R158). -/
structure PortInputs where
  rst : BitVec 1
  cmd_valid : BitVec 1
  cmd : BitVec 2
  budget_valid : BitVec 1
  budget : BitVec 64
  seed_time : BitVec 32
  seed_power : BitVec 32
  image : Image
  deriving DecidableEq, Repr

/-- The command the input ports present (70_reset_and_hazards.md R159). -/
def PortInputs.command (p : PortInputs) : Command :=
  match p.cmd.toNat with
  | 0 => .step
  | 1 => .run (if p.budget_valid = 1 then some p.budget else none)
  | 2 => .reset p.seed_time p.seed_power
  | _ => .load p.image

/-- The output ports after a transition (70_reset_and_hazards.md R158), with the beats the event port carried in it. An
output is `none` where the spec gives it no value: `status` where no command completes, the snapshot while a command is in
progress. DESIGN CHOICE, log entry 18. -/
structure PortOutputs where
  cmd_done : BitVec 1
  status : Option (BitVec 2)
  status_code : BitVec 3
  snapshot : Option Snapshot
  beats : List EventBeat
  deriving DecidableEq, Repr

/-- The beats of the events emitted between `s` and `t`. -/
def beatsBetween (s t : State) : List EventBeat := (t.trace.drop s.trace.length).map Event.beat

/-- The outputs at `t` with no command in progress and none completed. The spec gives `status` only with a completion, so
there is none here; `status_code` is 0, as R158 says where it accompanies no fault. DESIGN CHOICE, log entry 18. -/
def idleOutputs (t : State) : PortOutputs := ⟨0, none, 0, some t.snapshot, []⟩

/-- The outputs when a transition from `s` to `t` leaves a RUN in progress: no completion, and a snapshot that R157 leaves
unspecified. DESIGN CHOICE, log entry 18. -/
def progressOutputs (s t : State) : PortOutputs := ⟨0, none, 0, none, beatsBetween s t⟩

/-- The outputs when a command completes at `t` with status `st`, by a transition from `s`. -/
def doneOutputs (s t : State) (st : Status) : PortOutputs :=
  ⟨1, some st.number, st.faultCode, some t.snapshot, beatsBetween s t⟩

/-- The block with what the ports see beside its state: the RUN in progress, if there is one, with its budget. The other
commands are one transition and are never in progress (70_reset_and_hazards.md R170). -/
structure Block where
  state : State
  running : Option (Option StepCount)
  deriving DecidableEq, Repr

/-- One iteration of a RUN with budget `budget` at `s`: the RUN returns or stays in progress. A step is whole: nothing
comes between its stages (70_reset_and_hazards.md R169). -/
def Block.runOn (budget : Option StepCount) (s : State) : Block × PortOutputs :=
  match runIteration budget s with
  | .returns t st => (⟨t, none⟩, doneOutputs s t st)
  | .again t => (⟨t, some budget⟩, progressOutputs s t)

/-- A command presented at `s` with none in progress (70_reset_and_hazards.md R159). -/
def Block.present (c : Command) (s : State) : Block × PortOutputs :=
  match c with
  | .step => (⟨stepped s, none⟩, doneOutputs s (stepped s) (stepStatus s (stepped s)))
  | .run budget => Block.runOn budget s
  | .reset t p => (⟨resetRegs t p s, none⟩, doneOutputs s (resetRegs t p s) .ok)
  | .load img => (⟨loadImage img s, none⟩, doneOutputs s (loadImage img s) .ok)

/-- One transition at the ports. Power-on comes at any time, a RUN in progress included, and ends it (70_reset_and_hazards.md
R147, R169); it wins over a command (log entry 15). A RUN in progress does one iteration; the host has no move that
presents a command then (R165). With no command nothing happens. -/
def Block.tick (p : PortInputs) (b : Block) : Option (Block × PortOutputs) :=
  if p.rst = 1 then some (⟨powerOn b.state, none⟩, idleOutputs (powerOn b.state))
  else match b.running with
    | some budget => if p.cmd_valid = 1 then none else some (Block.runOn budget b.state)
    | none => if p.cmd_valid = 1 then some (Block.present p.command b.state) else some (b, idleOutputs b.state)

/-- Transitions under the inputs of the list, with the outputs of each. -/
def Block.ticks : List PortInputs → Block → Option (Block × List PortOutputs)
  | [], b => some (b, [])
  | p :: ps, b =>
    match b.tick p with
    | none => none
    | some (c, o) => (Block.ticks ps c).map fun r => (r.1, o :: r.2)

end Sys2Proof.Machine
end

