-- ==== Sys2Proof/Machine/Parametric.lean ====
section
/-! DEFINITION. The block with its widths as an argument (00_scope.md R7, R8): the pseudocode of 30_encoding.md R58 and R61,
40_step_cycle.md R89 and R92 and 70_reset_and_hazards.md R147, R150 and R154 over mathematical integers (00_scope.md R9),
the widths entering as bounds only. At the reference values it is the block of the other files
(`Obligations.BlockIsReferenceMachine`); with `finite` false it is the reading with unbounded registers (log entry 17). -/

namespace Sys2Proof.Machine

/-- The implementation parameters (00_scope.md R7). -/
structure Params where
  /-- Width of TIME and POWER, and of the operand field. -/
  XLEN : Nat
  /-- Width of `pc`, of PROG_LEN and of a label target. -/
  PCW : Nat
  /-- Width of `steps` and of a RUN budget. -/
  STEPW : Nat
  /-- Width of a label identifier. -/
  LBLW : Nat
  /-- False: the limit XLEN = infinity of the registers (R8); `XLEN` is then the width of the operand field only. -/
  finite : Bool
  deriving DecidableEq, Repr

/-- Width of an instruction word (00_scope.md R7). -/
def Params.ILEN (p : Params) : Nat := 4 + p.XLEN

/-- Greatest program length (00_scope.md R7). -/
def Params.MAXLEN (p : Params) : Nat := 2 ^ p.PCW - 1

/-- The constraints among the parameters (00_scope.md R8). -/
abbrev Params.ok (p : Params) : Prop :=
  2 ≤ p.XLEN ∧ 1 ≤ p.PCW ∧ 1 ≤ p.STEPW ∧ 1 ≤ p.LBLW ∧ p.LBLW ≤ p.XLEN

/-- The reference values (00_scope.md R7). -/
def Params.reference : Params := ⟨Config.XLEN, Config.PCW, Config.STEPW, Config.LBLW, true⟩

/-- The same widths with unbounded registers (00_scope.md R8). -/
def Params.unbounded (p : Params) : Params := { p with finite := false }

/-- `v` is in the signed range of XLEN bits (00_scope.md R9). -/
def Params.inField (p : Params) (v : Int) : Bool := decide (-2 ^ (p.XLEN - 1) ≤ v ∧ v < 2 ^ (p.XLEN - 1))

/-- A register can hold `v` (10_state.md R15). -/
def Params.holds (p : Params) (v : Int) : Bool := !p.finite || p.inField v

/-- `sext_XLEN` (00_scope.md R9). -/
def Params.sext (p : Params) (opd : Nat) : Int :=
  if opd < 2 ^ (p.XLEN - 1) then (opd : Int) else (opd : Int) - 2 ^ p.XLEN

/-- `trunc_XLEN` (00_scope.md R9). -/
def Params.trunc (p : Params) (v : Int) : Nat := (v % 2 ^ p.XLEN).toNat

/-- A decoded instruction, a label identifier being a number (30_encoding.md R61). -/
inductive NumInstr where
  | set (r : Reg) (v : Int)
  | inc (r : Reg)
  | decjz (r : Reg) (l : Nat)
  | goto (l : Nat)
  | print
  | halt
  deriving DecidableEq, Repr

/-- The operands are values the encoding admits (30_encoding.md R61). -/
def NumInstr.wf (p : Params) : NumInstr → Bool
  | .set _ v => p.inField v
  | .inc _ => true
  | .decjz _ l => decide (l < 2 ^ p.LBLW)
  | .goto l => decide (l < 2 ^ p.LBLW)
  | .print => true
  | .halt => true

/-- The word with the three fields given (30_encoding.md R48). -/
def Params.pack (p : Params) (op r opd : Nat) : Nat := op * 2 ^ (p.XLEN + 1) + r * 2 ^ p.XLEN + opd

/-- `Encode` (30_encoding.md R61). -/
def Params.encode (p : Params) : NumInstr → Nat
  | .set r v => p.pack 0 (regNumber r) (p.trunc v)
  | .inc r => p.pack 1 (regNumber r) 0
  | .decjz r l => p.pack 2 (regNumber r) l
  | .goto l => p.pack 3 0 l
  | .print => p.pack 4 0 0
  | .halt => p.pack 5 0 0

/-- The register with number `r` (30_encoding.md R50). -/
def numReg (r : Nat) : Reg := if r = 0 then .time else .power

/-- `Decode` of a word with fields `op`, `r`, `opd`, nothing where it is illegal (30_encoding.md R58); the operand bits above
LBLW are zero exactly where `opd < 2^LBLW`. -/
def Params.decodeFields (p : Params) (op r opd : Nat) : Option NumInstr :=
  match op with
  | 0 => some (.set (numReg r) (p.sext opd))
  | 1 => if opd = 0 then some (.inc (numReg r)) else none
  | 2 => if opd < 2 ^ p.LBLW then some (.decjz (numReg r) opd) else none
  | 3 => if r = 0 ∧ opd < 2 ^ p.LBLW then some (.goto opd) else none
  | 4 => if r = 0 ∧ opd = 0 then some .print else none
  | 5 => if r = 0 ∧ opd = 0 then some .halt else none
  | _ => none

/-- `Decode` (30_encoding.md R48, R58) of a word of ILEN bits. -/
def Params.decode (p : Params) (w : Nat) : Option NumInstr :=
  p.decodeFields (w / 2 ^ (p.XLEN + 1) % 8) (w / 2 ^ p.XLEN % 2) (w % 2 ^ p.XLEN)

/-- The state of a block of any widths (10_state.md R13): `State` with numbers for bits. -/
structure NumState where
  time : Int
  power : Int
  pc : Nat
  halted : Bool
  steps : Nat
  fault : FaultCode
  faultInfo : Nat
  progLen : Nat
  imem : Memory Nat
  ltab : Memory (Option Nat)
  trace : List Event
  deriving DecidableEq, Repr

/-- `x[r]` (00_scope.md R10). -/
def NumState.x (s : NumState) : Reg → Int
  | .time => s.time
  | .power => s.power

/-- `IFetch(i)` (20_memory.md R33). -/
def NumState.fetch (s : NumState) (i : Nat) : Nat := Memory.read 0 s.imem i

/-- `LabelLookup(l)` (20_memory.md R36). -/
def NumState.lookup (s : NumState) (l : Nat) : Option Nat := Memory.read none s.ltab l

/-- `raise` (60_exceptions.md R126). -/
def NumState.raise (p : Params) (c : FaultCode) (info : Nat) (s : NumState) : NumState :=
  { s with fault := c, faultInfo := info % 2 ^ p.ILEN }

/-- `x[r] <- v; pc <- pc + 1`. -/
def NumState.put (s : NumState) (r : Reg) (v : Int) : NumState :=
  match r with
  | .time => { s with time := v, pc := s.pc + 1 }
  | .power => { s with power := v, pc := s.pc + 1 }

/-- `x[r] <- x[r] + d; pc <- pc + 1`, or RegisterOverflow(r) (41_register_ops.md R98, R99; 42_control_transfer.md R104). -/
def NumState.addTo (p : Params) (r : Reg) (d : Int) (s : NumState) : NumState :=
  if p.holds (s.x r + d) then s.put r (s.x r + d) else s.raise p .registerOverflow (regNumber r)

/-- `pc <- Resolve(l)` (42_control_transfer.md R103). -/
def NumState.jump (p : Params) (l : Nat) (s : NumState) : NumState :=
  match s.lookup l with
  | some t => { s with pc := t }
  | none => s.raise p .unknownLabel l

/-- The transition of one instruction (40_step_cycle.md R89). -/
def NumState.apply (p : Params) (i : NumInstr) (s : NumState) : NumState :=
  match i with
  | .set r v => s.put r v
  | .inc r => s.addTo p r 1
  | .decjz r l => if s.x r = 0 then s.jump p l else s.addTo p r (-1)
  | .goto l => s.jump p l
  | .print => { s with trace := s.trace ++ [.obs s.time], pc := s.pc + 1 }
  | .halt => { s with trace := s.trace ++ [.halt], halted := true }

/-- Count, decode and apply the fetched word `w` (40_step_cycle.md R89). -/
def NumState.execute (p : Params) (w : Nat) (s : NumState) : NumState :=
  match p.decode w with
  | none => NumState.raise p .illegalInstruction w { s with steps := s.steps + 1 }
  | some i => NumState.apply p i { s with steps := s.steps + 1 }

/-- STEP (40_step_cycle.md R89). -/
def NumState.step (p : Params) (s : NumState) : NumState :=
  if s.fault ≠ .none then s
  else if s.halted then s
  else if s.progLen ≤ s.pc then { s with halted := true }
  else if s.steps = 2 ^ p.STEPW - 1 then s.raise p .stepCounterOverflow 0
  else s.execute p (s.fetch s.pc)

/-- `n` STEPs. -/
def NumState.iterate (p : Params) : Nat → NumState → NumState
  | 0, s => s
  | n + 1, s => NumState.iterate p n (s.step p)

/-- One iteration of RUN's loop (40_step_cycle.md R92). -/
def NumState.runIteration (p : Params) (budget : Option Nat) (s : NumState) : Iteration NumState :=
  if s.fault ≠ .none then .returns s (.faulted s.fault)
  else if s.halted then .returns s .ok
  else if budget.any fun b => decide (b ≤ s.steps) then
    .returns (s.raise p .stepLimitExceeded (budget.getD 0)) (.fault .stepLimitExceeded)
  else if (s.step p).fault ≠ .none then .returns (s.step p) (.fault (s.step p).fault)
  else .again (s.step p)

/-- An image for a block of any widths (70_reset_and_hazards.md R149). -/
structure NumImage where
  words : List Nat
  labels : List (Nat × Nat)
  deriving DecidableEq, Repr

/-- What the image port can express (70_reset_and_hazards.md R149): at most MAXLEN words of ILEN bits, distinct label
identifiers of LBLW bits, targets of PCW bits. -/
abbrev NumImage.wf (p : Params) (img : NumImage) : Prop :=
  img.words.length ≤ p.MAXLEN ∧ (∀ w ∈ img.words, w < 2 ^ p.ILEN) ∧ (img.labels.map Prod.fst).Nodup ∧
    ∀ d ∈ img.labels, d.1 < 2 ^ p.LBLW ∧ d.2 < 2 ^ p.PCW

/-- The label table with the entries of the list (70_reset_and_hazards.md R150). -/
def numLabelTable : List (Nat × Nat) → Memory (Option Nat)
  | [] => []
  | (l, t) :: entries => Memory.write none (numLabelTable entries) l (some t)

/-- LOAD (70_reset_and_hazards.md R150). -/
def NumState.load (img : NumImage) (s : NumState) : NumState :=
  { s with
    progLen := img.words.length
    imem := Memory.ofListFrom 0 0 img.words
    ltab := numLabelTable img.labels
    pc := 0, halted := false, steps := 0, fault := .none, faultInfo := 0 }

/-- RESET (70_reset_and_hazards.md R154). -/
def NumState.reset (seedTime seedPower : Int) (s : NumState) : NumState :=
  { s with time := seedTime, power := seedPower, pc := 0, halted := false, steps := 0, fault := .none, faultInfo := 0 }

/-- The state after power-on (70_reset_and_hazards.md R147). -/
def NumState.initial : NumState := ⟨0, 0, 0, false, 0, .none, 0, 0, [], [], []⟩

/-- Every value of the state fits its width (10_state.md R15, R18, R22 to R24; 20_memory.md R31). -/
structure NumState.Fits (p : Params) (s : NumState) : Prop where
  time : p.holds s.time = true
  power : p.holds s.power = true
  pc : s.pc < 2 ^ p.PCW
  steps : s.steps < 2 ^ p.STEPW
  faultInfo : s.faultInfo < 2 ^ p.ILEN
  progLen : s.progLen ≤ p.MAXLEN
  words : ∀ i, s.fetch i < 2 ^ p.ILEN
  targets : ∀ l t, s.lookup l = some t → t < 2 ^ p.PCW

/-- The block's state in numbers. -/
def State.numbers (s : State) : NumState where
  time := s.time.toInt
  power := s.power.toInt
  pc := s.pc.toNat
  halted := s.halted
  steps := s.steps.toNat
  fault := s.fault
  faultInfo := s.faultInfo.toNat
  progLen := s.progLen.toNat
  imem := s.imem.map fun c => (c.1, c.2.toNat)
  ltab := s.ltab.map fun c => (c.1, c.2.map BitVec.toNat)
  trace := s.trace

/-- The block's image in numbers. -/
def Image.numbers (img : Image) : NumImage :=
  ⟨img.words.map BitVec.toNat, img.labels.map fun d => (d.1.toNat, d.2.toNat)⟩

/-- The block's instruction in numbers. -/
def NumInstr.ofInstr : Instr → NumInstr
  | .set r v => .set r v
  | .inc r => .inc r
  | .decjz r l => .decjz r l.toNat
  | .goto l => .goto l.toNat
  | .print => .print
  | .halt => .halt

/-- An iteration's outcome in numbers. -/
def Iteration.numbers : Iteration State → Iteration NumState
  | .returns s st => .returns s.numbers st
  | .again s => .again s.numbers

end Sys2Proof.Machine
end

