-- ==== Sys2Proof/Machine/Assembler.lean ====
section
/-! DEFINITION. The two-pass assembler, the toolchain's contract (30_encoding.md R63 to R80): from source text to the image
that LOAD commits. It runs outside the block, and none of its errors reaches it (00_scope.md R4, 60_exceptions.md R136). -/

namespace Sys2Proof.Machine

/-- A line, a token or a label name. -/
abbrev Text := List Char

/-- What an opcode expects in an argument place (30_encoding.md R69). -/
inductive ArgShape where
  | register
  | literal
  | label
  deriving DecidableEq, Repr

/-- The assembler's errors (30_encoding.md R73). -/
inductive AsmError where
  /-- A label definition line with nothing before its `:` (R66). -/
  | emptyLabel
  /-- The same label name defined twice (R66). -/
  | duplicateLabel
  /-- The first token of an instruction line is no opcode (R68). -/
  | unknownOpcode
  /-- Wrong argument count, unknown register name or non-integer literal, with the opcode, the expected shape and the
  offending (normalised) line; also called `ParseError` (R69, 90_conflicts.md C2). -/
  | arityOrArgument (opcode : Text) (expected : List ArgShape) (line : Text)
  /-- The program does not fit the hardware's widths (R77). -/
  | capacity
  /-- The model's own refusal, not one of R73: the text holds a character whose part in lines and white space the spec
  leaves open, for which 93_implementation_defined.md V10 asks a model to refuse (log entry 12). -/
  | undecidedText
  deriving DecidableEq, Repr

/-- An instruction line as pass 2 reads it: a label operand is still a name (30_encoding.md R72). -/
inductive AsmInstr where
  | set (r : Reg) (v : Int)
  | inc (r : Reg)
  | decjz (r : Reg) (label : Text)
  | goto (label : Text)
  | print
  | halt
  deriving DecidableEq, Repr

/-- The line terminator: the line feed, the one the spec's examples use (91_not_in_source.md N21, log entry 12). -/
def isNewline (c : Char) : Bool := c == '\n'

/-- White space inside a line: the space, the one the spec's examples use (91_not_in_source.md N21, log entry 12). -/
def isBlank (c : Char) : Bool := c == ' '

/-- The characters beyond ASCII that text conventions take as white space or as line terminators, by their numbers. -/
def spaceNumbers : List Nat :=
  [0xA0, 0x1680, 0x180E, 0x2000, 0x2001, 0x2002, 0x2003, 0x2004, 0x2005, 0x2006, 0x2007, 0x2008, 0x2009, 0x200A,
    0x200B, 0x2028, 0x2029, 0x202F, 0x205F, 0x2060, 0x3000, 0xFEFF]

/-- A control character: U+0000 to U+001F and U+007F to U+009F. -/
def isControl (c : Char) : Bool := decide (c.toNat < 0x20) || (decide (0x7F ≤ c.toNat) && decide (c.toNat ≤ 0x9F))

/-- The spec does not say whether this character ends a line, is white space or is part of a token: a control character
other than the line feed (tab, carriage return, form feed and so on), or a space character beyond ASCII
(91_not_in_source.md N21, 93_implementation_defined.md V10). That these are the open characters, and that every other one
is part of a token, is the model's choice. DESIGN CHOICE, log entry 12. -/
def isUndecided (c : Char) : Bool := (isControl c && !isNewline c) || spaceNumbers.contains c.toNat

/-- The characters that introduce a comment (30_encoding.md R64). -/
def startsComment (c : Char) : Bool := c == ';' || c == '#'

/-- The pieces of a text between the characters that `p` accepts. -/
def splitAt (p : Char → Bool) : Text → List Text
  | [] => [[]]
  | c :: cs =>
    if p c then [] :: splitAt p cs
    else match splitAt p cs with
      | [] => [[c]]
      | piece :: pieces => (c :: piece) :: pieces

/-- Without the white space around it. -/
def trim (t : Text) : Text := (((t.dropWhile isBlank).reverse).dropWhile isBlank).reverse

/-- One line without its comment and the white space around it (30_encoding.md R64). -/
def normaliseLine (line : Text) : Text := trim (line.takeWhile fun c => !startsComment c)

/-- The normalised lines of a source text, empty ones discarded (30_encoding.md R64). -/
def normalise (source : Text) : List Text :=
  ((splitAt isNewline source).map normaliseLine).filter fun line => !line.isEmpty

/-- A label definition line: its last character is `:` (30_encoding.md R65). -/
def isLabelLine (line : Text) : Bool := line.getLast? == some ':'

/-- The name a label definition line defines (30_encoding.md R65). -/
def definedName (line : Text) : Text := trim line.dropLast

/-- Pass 1 (30_encoding.md R66): from the slot counter and the labels so far, the label names with their slots in the
order of definition, and the number of instruction lines. -/
def collectLabels : List Text → Nat → List (Text × Nat) → Except AsmError (List (Text × Nat) × Nat)
  | [], slot, labels => .ok (labels, slot)
  | line :: lines, slot, labels =>
    if isLabelLine line then
      if (definedName line).isEmpty then .error .emptyLabel
      else if (labels.map Prod.fst).contains (definedName line) then .error .duplicateLabel
      else collectLabels lines slot (labels ++ [(definedName line, slot)])
    else collectLabels lines (slot + 1) labels

/-- The tokens of an instruction line; commas are white space (30_encoding.md R67). -/
def tokens (line : Text) : List Text :=
  (splitAt (fun c => isBlank c || c == ',') line).filter fun t => !t.isEmpty

/-- A token in upper case (30_encoding.md R68, R70). -/
def upper (t : Text) : Text := t.map Char.toUpper

/-- A register token (30_encoding.md R70); nothing where it names no register. -/
def parseReg (t : Text) : Option Reg :=
  if upper t = ['T', 'I', 'M', 'E'] then some .time
  else if upper t = ['P', 'O', 'W', 'E', 'R'] then some .power
  else none

/-- The number that decimal digits write, read on from `n`; nothing where a character is no digit (30_encoding.md R71). -/
def parseDigits : Nat → Text → Option Nat
  | n, [] => some n
  | n, c :: cs =>
    if '0'.toNat ≤ c.toNat ∧ c.toNat ≤ '9'.toNat then parseDigits (10 * n + (c.toNat - '0'.toNat)) cs else none

/-- One or more decimal digits (30_encoding.md R71). -/
def parseNumber (t : Text) : Option Int :=
  if t.isEmpty then none else (parseDigits 0 t).map fun n => (n : Int)

/-- A literal token: an optional sign, then one or more decimal digits (30_encoding.md R71). -/
def parseLiteral (t : Text) : Option Int :=
  match t with
  | '-' :: digits => (parseNumber digits).map fun n => -n
  | '+' :: digits => parseNumber digits
  | digits => parseNumber digits

/-- The arguments of SET: a register and a literal (30_encoding.md R69). -/
def parseSet (args : List Text) : Option AsmInstr :=
  match args with
  | [r, v] => (parseReg r).bind fun r => (parseLiteral v).map fun v => .set r v
  | _ => none

/-- The argument of INC: a register (30_encoding.md R69). -/
def parseInc (args : List Text) : Option AsmInstr :=
  match args with
  | [r] => (parseReg r).map fun r => .inc r
  | _ => none

/-- The arguments of DECJZ: a register and a label, which need not exist (30_encoding.md R69, R72). -/
def parseDecjz (args : List Text) : Option AsmInstr :=
  match args with
  | [r, l] => (parseReg r).map fun r => .decjz r l
  | _ => none

/-- The argument of GOTO: one label token, which need not exist (30_encoding.md R69, R72). -/
def parseGoto (args : List Text) : Option AsmInstr :=
  match args with
  | [l] => some (.goto l)
  | _ => none

/-- An instruction without arguments (30_encoding.md R69). -/
def parsePlain (i : AsmInstr) (args : List Text) : Option AsmInstr :=
  if args.isEmpty then some i else none

/-- The parsed instruction, or the error of a line whose arguments violate the opcode's shape (30_encoding.md R69). -/
def orArityError (opcode : Text) (expected : List ArgShape) (line : Text) : Option AsmInstr → Except AsmError AsmInstr
  | some i => .ok i
  | none => .error (.arityOrArgument opcode expected line)

/-- One instruction line (30_encoding.md R68, R69). A line without any token has no opcode, log entry 13. -/
def parseLine (line : Text) : Except AsmError AsmInstr :=
  match tokens line with
  | [] => .error .unknownOpcode
  | opcode :: args =>
    if upper opcode = ['S', 'E', 'T'] then orArityError (upper opcode) [.register, .literal] line (parseSet args)
    else if upper opcode = ['I', 'N', 'C'] then orArityError (upper opcode) [.register] line (parseInc args)
    else if upper opcode = ['D', 'E', 'C', 'J', 'Z'] then
      orArityError (upper opcode) [.register, .label] line (parseDecjz args)
    else if upper opcode = ['G', 'O', 'T', 'O'] then orArityError (upper opcode) [.label] line (parseGoto args)
    else if upper opcode = ['P', 'R', 'I', 'N', 'T'] then orArityError (upper opcode) [] line (parsePlain .print args)
    else if upper opcode = ['H', 'A', 'L', 'T'] then orArityError (upper opcode) [] line (parsePlain .halt args)
    else .error .unknownOpcode

/-- Pass 2 (30_encoding.md R67): the instructions of the lines that are no label definitions, in source order. -/
def parseLines : List Text → Except AsmError (List AsmInstr)
  | [] => .ok []
  | line :: lines =>
    if isLabelLine line then parseLines lines
    else match parseLine line with
      | .error e => .error e
      | .ok i =>
        match parseLines lines with
        | .error e => .error e
        | .ok is => .ok (i :: is)

/-- The label name an instruction refers to. -/
def AsmInstr.label? : AsmInstr → Option Text
  | .decjz _ l => some l
  | .goto l => some l
  | .set _ _ => none
  | .inc _ => none
  | .print => none
  | .halt => none

/-- The label name a normalised line defines or refers to (30_encoding.md R75). -/
def lineName? (line : Text) : Option Text :=
  if isLabelLine line then some (definedName line)
  else match parseLine line with
    | .ok i => i.label?
    | .error _ => none

/-- Each entry once, where it first appears; `seen` holds those that came before. -/
def firstAppearances (seen : List Text) : List Text → List Text
  | [] => []
  | t :: ts => if seen.contains t then firstAppearances seen ts else t :: firstAppearances (t :: seen) ts

/-- The label names of a program in the order of first appearance: a name's identifier is its index (30_encoding.md R75). -/
def labelNames (lines : List Text) : List Text := firstAppearances [] (lines.filterMap lineName?)

/-- The identifier of a name (30_encoding.md R75). -/
def labelId (names : List Text) (name : Text) : Label := BitVec.ofNat 16 (names.idxOf name)

/-- The instruction with its label name replaced by its identifier (30_encoding.md R76). -/
def AsmInstr.resolve (names : List Text) : AsmInstr → Instr
  | .set r v => .set r v
  | .inc r => .inc r
  | .decjz r l => .decjz r (labelId names l)
  | .goto l => .goto (labelId names l)
  | .print => .print
  | .halt => .halt

/-- The image of a program (30_encoding.md R76), or CapacityError where it does not fit: more than MAXLEN instructions,
more than 2^LBLW label names, or a SET literal outside the signed range (R77, log entry 14). -/
def buildImage (names : List Text) (labels : List (Text × Nat)) (instrs : List AsmInstr) : Except AsmError Image :=
  if instrs.length ≤ Config.MAXLEN ∧ names.length ≤ 2 ^ Config.LBLW ∧
      (instrs.map (AsmInstr.resolve names)).all Instr.wf then
    .ok ⟨instrs.map fun i => encode (i.resolve names), labels.map fun d => (labelId names d.1, BitVec.ofNat 16 d.2)⟩
  else .error .capacity

/-- Both passes over the normalised lines (30_encoding.md R66, R67, R76), then `build`: pass 1 completes before pass 2
begins. -/
def assembleLines {α : Type} (build : List Text → List (Text × Nat) → List AsmInstr → Except AsmError α)
    (lines : List Text) : Except AsmError α :=
  match collectLabels lines 0 [] with
  | .error e => .error e
  | .ok (labels, _) =>
    match parseLines lines with
    | .error e => .error e
    | .ok is => build (labelNames lines) labels is

/-- The assembler up to `build`; a text with an undecided character is refused first (93_implementation_defined.md V10). -/
def assembleWith {α : Type} (build : List Text → List (Text × Nat) → List AsmInstr → Except AsmError α)
    (source : Text) : Except AsmError α :=
  if source.any isUndecided then .error .undecidedText else assembleLines build (normalise source)

/-- The assembler (30_encoding.md R63): the image of a source text, or the error it fails with. -/
def assemble (source : Text) : Except AsmError Image := assembleWith buildImage source

/-- An instruction with its label name replaced by its identifier, any width (30_encoding.md R76). -/
def AsmInstr.number (names : List Text) : AsmInstr → NumInstr
  | .set r v => .set r v
  | .inc r => .inc r
  | .decjz r l => .decjz r (names.idxOf l)
  | .goto l => .goto (names.idxOf l)
  | .print => .print
  | .halt => .halt

/-- `buildImage` for any widths (30_encoding.md R76, R77). -/
def buildNumImage (p : Params) (names : List Text) (labels : List (Text × Nat)) (instrs : List AsmInstr) :
    Except AsmError NumImage :=
  if instrs.length ≤ p.MAXLEN ∧ names.length ≤ 2 ^ p.LBLW ∧ (instrs.map (AsmInstr.number names)).all (NumInstr.wf p) then
    .ok ⟨instrs.map fun i => p.encode (i.number names), labels.map fun d => (names.idxOf d.1, d.2)⟩
  else .error .capacity

/-- The assembler for a block of any widths (30_encoding.md R63, R77). -/
def assembleFor (p : Params) (source : Text) : Except AsmError NumImage := assembleWith (buildNumImage p) source

/-- `load_program` as the host sees it (70_reset_and_hazards.md R152, R159; 30_encoding.md R74): assemble outside the
block, LOAD only on full success; a failed assembly leaves the block as it was. -/
def loadProgram (source : Text) (s : State) : State × Option AsmError :=
  match assemble source with
  | .ok img => (loadImage img s, none)
  | .error e => (s, some e)

/-- A register's name (30_encoding.md R80). -/
def Reg.name : Reg → Text
  | .time => ['T', 'I', 'M', 'E']
  | .power => ['P', 'O', 'W', 'E', 'R']

/-- A signed number in decimal (30_encoding.md R71). -/
def decimal (v : Int) : Text := if v < 0 then '-' :: Nat.toDigits 10 v.natAbs else Nat.toDigits 10 v.natAbs

/-- A label whose name is unknown, written `L<n>` (30_encoding.md R80). -/
def labelText (l : Label) : Text := 'L' :: Nat.toDigits 10 l.toNat

/-- The canonical spelling of an instruction (30_encoding.md R80). -/
def disassemble : Instr → Text
  | .set r v => ['S', 'E', 'T', ' '] ++ Reg.name r ++ [' '] ++ decimal v
  | .inc r => ['I', 'N', 'C', ' '] ++ Reg.name r
  | .decjz r l => ['D', 'E', 'C', 'J', 'Z', ' '] ++ Reg.name r ++ [' '] ++ labelText l
  | .goto l => ['G', 'O', 'T', 'O', ' '] ++ labelText l
  | .print => ['P', 'R', 'I', 'N', 'T']
  | .halt => ['H', 'A', 'L', 'T']

end Sys2Proof.Machine
end

