-- ==== Sys2Proof/Safety.lean ====
section
/-! DEFINITION. The terms statements are made in: the three states of the machine, the end of a run, what stays the same,
and the invariants of the block. -/

namespace Sys2Proof.Machine

/-- The state Running (10_state.md R25). -/
abbrev State.running (s : State) : Prop := s.fault = .none ∧ s.halted = false

/-- The state Halted (10_state.md R25). -/
abbrev State.isHalted (s : State) : Prop := s.fault = .none ∧ s.halted = true

/-- The state Faulted (10_state.md R25). -/
abbrev State.isFaulted (s : State) : Prop := s.fault ≠ .none

/-- A run has ended (40_step_cycle.md R94). -/
abbrev State.ended (s : State) : Prop := s.halted = true ∨ s.fault ≠ .none

/-- A run has ended successfully, by a halt of either kind (40_step_cycle.md R94). -/
abbrev State.finished (s : State) : Prop := s.halted = true ∧ s.fault = .none

/-- A step from `s` fetches and counts an instruction (40_step_cycle.md R82 to R86). -/
abbrev State.fetches (s : State) : Prop := s.running ∧ s.pc < s.progLen ∧ s.steps ≠ Config.maxSteps

/-- The two memories and PROG_LEN read in `t` as in `s`, at every address. -/
abbrev sameProgram (s t : State) : Prop :=
  t.progLen = s.progLen ∧ (∀ a, fetchWord t a = fetchWord s a) ∧ ∀ l, labelLookup t l = labelLookup s l

/-- `s` with register `r` holding `v` and `pc` at `t`, and nothing else changed. -/
abbrev State.withRegPc (s : State) (r : Reg) (v : Word) (t : SlotIndex) : State :=
  match r with
  | .time => { s with time := v, pc := t }
  | .power => { s with power := v, pc := t }

/-- `s` with a fault latched, and nothing else changed (60_exceptions.md R126). -/
abbrev State.withFault (s : State) (c : FaultCode) (info : IWord) : State := { s with fault := c, faultInfo := info }

/-- `s` with the step counted (40_step_cycle.md R86), and nothing else changed. -/
abbrev State.counted (s : State) : State := { s with steps := s.steps + 1 }

/-- `i` reads or writes register `r` (10_state.md R16). -/
def touches (i : Instr) (r : Reg) : Bool :=
  match i with
  | .set r' _ => r' == r
  | .inc r' => r' == r
  | .decjz r' _ => r' == r
  | .goto _ => false
  | .print => r == .time
  | .halt => false

/-- `i`, executed at `s`, may write register `r` (10_state.md R16: DECJZ writes only a register that is not zero). -/
def writes (i : Instr) (s : State) (r : Reg) : Prop :=
  match i with
  | .set r' _ => r' = r
  | .inc r' => r' = r
  | .decjz r' _ => r' = r ∧ s.x r ≠ 0
  | .goto _ => False
  | .print => False
  | .halt => False

/-- The instruction at `pc` is `i`. -/
abbrev State.atInstr (s : State) (i : Instr) : Prop := s.pc < s.progLen ∧ decode (fetchWord s s.pc) = .ok i

/-- Where `pc` can be (10_state.md R20): at most PROG_LEN, or a target of the label table. -/
abbrev State.pcReachable (s : State) : Prop := s.pc ≤ s.progLen ∨ ∃ l, labelLookup s l = some s.pc

/-- A halted machine stands at a HALT or outside the program (43_system.md R113). -/
abbrev State.haltExplained (s : State) : Prop := s.halted = true → s.progLen ≤ s.pc ∨ s.atInstr .halt

/-- The latched fault is the one the instruction at `pc` raises, with the information the spec gives it (60_exceptions.md
R122 to R128); for a StepLimitExceeded it is a budget that the step counter has reached (R124, R129). -/
def State.faultExplained (s : State) : Prop :=
  match s.fault with
  | .none => s.faultInfo = 0
  | .unknownLabel =>
    ∃ l, s.faultInfo = BitVec.ofNat 36 l.toNat ∧ labelLookup s l = none ∧
      (s.atInstr (.goto l) ∨ ∃ r, s.atInstr (.decjz r l) ∧ s.x r = 0)
  | .stepLimitExceeded => ∃ b : StepCount, b ≤ s.steps ∧ s.faultInfo = BitVec.ofNat 36 b.toNat
  | .illegalInstruction =>
    s.pc < s.progLen ∧ s.faultInfo = fetchWord s s.pc ∧ ∃ e, decode (fetchWord s s.pc) = .error e
  | .registerOverflow =>
    ∃ r, s.faultInfo = BitVec.ofNat 36 (regNumber r) ∧
      ((s.atInstr (.inc r) ∧ s.x r = Config.maxReg) ∨ ∃ l, s.atInstr (.decjz r l) ∧ s.x r = Config.minReg)
  | .stepCounterOverflow => s.faultInfo = 0 ∧ s.steps = Config.maxSteps ∧ s.pc < s.progLen

/-- The invariant of the block: both memories in canonical form, `fault` and `halted` never both set (60_exceptions.md
R146), `pc` where R20 lets it be, every halt and every latched fault explained. -/
structure State.Inv (s : State) : Prop where
  memories : s.memoryWf
  exclusive : s.fault ≠ .none → s.halted = false
  pcPlace : s.pcReachable
  halt : s.haltExplained
  faulted : s.faultExplained

end Sys2Proof.Machine
end

