-- ==== Sys2Proof/Certificates/Slice0/Obligations.lean ====
section
/-! DEFINITION. The statements about the model. Each docstring names the rules of spec/ it formalises. -/

open Sys2Proof Sys2Proof.Machine

/-! ### Encoding -/

/-- 30_encoding.md R61, with R49, R52 to R56: the fields of every encoding, and both laws of Encode and Decode. -/
def Obligations.EncodeDecodeInverse : Prop :=
  (∀ r v, opField (encode (.set r v)) = 0 ∧ regField (encode (.set r v)) = r.toBit ∧
    opdField (encode (.set r v)) = BitVec.ofInt 32 v) ∧
  (∀ r, opField (encode (.inc r)) = 1 ∧ regField (encode (.inc r)) = r.toBit ∧ opdField (encode (.inc r)) = 0) ∧
  (∀ r l, opField (encode (.decjz r l)) = 2 ∧ regField (encode (.decjz r l)) = r.toBit ∧
    opdField (encode (.decjz r l)) = l.setWidth 32) ∧
  (∀ l, opField (encode (.goto l)) = 3 ∧ regField (encode (.goto l)) = 0 ∧
    opdField (encode (.goto l)) = l.setWidth 32) ∧
  (opField (encode .print) = 4 ∧ regField (encode .print) = 0 ∧ opdField (encode .print) = 0) ∧
  (opField (encode .halt) = 5 ∧ regField (encode .halt) = 0 ∧ opdField (encode .halt) = 0) ∧
  (∀ i : Instr, i.wf → decode (encode i) = .ok i) ∧
  ∀ w i, decode w = .ok i → i.wf ∧ encode i = w

/-- 30_encoding.md R57: a word decodes to an instruction of the row whose match and mask select it, a word that a row
selects is legal, and the rows of two mnemonics select no common word. -/
def Obligations.OpcodeMapSelectsDecoding : Prop :=
  (∀ w i, decode w = .ok i → i.row.selects w) ∧
  (∀ w (j : Instr), j.row.selects w → ∃ i, decode w = .ok i ∧ i.row = j.row) ∧
  ∀ w (i j : Instr), i.row.selects w → j.row.selects w → i.row.mnemonic = j.row.mnemonic

/-- 30_encoding.md R59: which words are illegal, that executing one raises IllegalInstruction, and that loading one
raises nothing. The fields are written as arithmetic on the word's number. -/
def Obligations.IllegalWordsExactly : Prop :=
  (∀ w : IWord, (∃ e, decode w = .error e) ↔
    6 ≤ w.toNat / 2 ^ 33 ∨
    ((w.toNat / 2 ^ 33 = 1 ∨ w.toNat / 2 ^ 33 = 4 ∨ w.toNat / 2 ^ 33 = 5) ∧ w.toNat % 2 ^ 32 ≠ 0) ∨
    ((w.toNat / 2 ^ 33 = 3 ∨ w.toNat / 2 ^ 33 = 4 ∨ w.toNat / 2 ^ 33 = 5) ∧ w.toNat / 2 ^ 32 % 2 ≠ 0) ∨
    ((w.toNat / 2 ^ 33 = 2 ∨ w.toNat / 2 ^ 33 = 3) ∧ w.toNat / 2 ^ 16 % 2 ^ 16 ≠ 0)) ∧
  (∀ s : State, s.fetches → (∃ e, decode (fetchWord s s.pc) = .error e) →
    ∃ t, step s = .next t ∧ t.fault = .illegalInstruction) ∧
  ∀ (img : Image) (s t : State) (st : Status), (Command.load img).completes s t st → t.fault = .none ∧ st = .ok

/-- 30_encoding.md R62: the reference encodings and the illegal examples. -/
def Obligations.ReferenceWordsDecode : Prop :=
  decode 0x000000005#36 = .ok (.set .time 5) ∧
  decode 0x1FFFFFFFF#36 = .ok (.set .power (-1)) ∧
  decode 0x07FFFFFFF#36 = .ok (.set .time 2147483647) ∧
  decode 0x180000000#36 = .ok (.set .power (-2147483648)) ∧
  decode 0x200000000#36 = .ok (.inc .time) ∧
  decode 0x300000000#36 = .ok (.inc .power) ∧
  decode 0x400000000#36 = .ok (.decjz .time 0) ∧
  decode 0x50000FFFF#36 = .ok (.decjz .power 65535) ∧
  decode 0x600000003#36 = .ok (.goto 3) ∧
  decode 0x800000000#36 = .ok .print ∧
  decode 0xA00000000#36 = .ok .halt ∧
  ∀ w ∈ [0xC00000000#36, 0xE00000000#36, 0x200000001#36, 0x700000000#36, 0x400010000#36, 0x900000000#36,
    0xA00000001#36], ∀ i, decode w ≠ .ok i

/-! ### The instructions: each completes, with this next state and no other change -/

/-- 41_register_ops.md R97: SET completes from every state, with any value XLEN bits hold. -/
def Obligations.SetLoadsConstant : Prop :=
  ∀ (r : Reg) (v : Int) (s : State), (Instr.set r v).wf →
    (encode (.set r v)).toNat = r.toBit.toNat * 2 ^ 32 + (BitVec.ofInt 32 v).toNat ∧
    ∃ w : Word, w.toInt = v ∧ exec (.set r v) s = .next (s.withRegPc r w (s.pc + 1))

/-- 41_register_ops.md R98, 60_exceptions.md R127: INC completes below the greatest value; at it, it raises
RegisterOverflow(r) and writes nothing else. -/
def Obligations.IncAddsOneOrOverflows : Prop :=
  ∀ (r : Reg) (s : State),
    (encode (.inc r)).toNat = 2 ^ 33 + r.toBit.toNat * 2 ^ 32 ∧
    (s.x r ≠ 2147483647 →
      ∃ w : Word, w.toInt = s.x r + 1 ∧ exec (.inc r) s = .next (s.withRegPc r w (s.pc + 1))) ∧
    (s.x r = 2147483647 → exec (.inc r) s = .next (s.withFault .registerOverflow (r.toBit.setWidth 36)))

/-- 42_control_transfer.md R104: DECJZ jumps on zero and otherwise subtracts one; on each branch what it completes with,
and the fault it raises where it cannot. -/
def Obligations.DecjzDecrementsOrJumps : Prop :=
  ∀ (r : Reg) (l : Label) (s : State),
    (encode (.decjz r l)).toNat = 2 * 2 ^ 33 + r.toBit.toNat * 2 ^ 32 + l.toNat ∧
    (∀ t, s.x r = 0 → labelLookup s l = some t → exec (.decjz r l) s = .next { s with pc := t }) ∧
    (s.x r = 0 → labelLookup s l = none →
      exec (.decjz r l) s = .next (s.withFault .unknownLabel (l.setWidth 36))) ∧
    (s.x r ≠ 0 → s.x r ≠ -2147483648 →
      ∃ w : Word, w.toInt = s.x r - 1 ∧ exec (.decjz r l) s = .next (s.withRegPc r w (s.pc + 1))) ∧
    (s.x r = -2147483648 →
      exec (.decjz r l) s = .next (s.withFault .registerOverflow (r.toBit.setWidth 36)))

/-- 42_control_transfer.md R105: GOTO jumps to the label's target, or raises UnknownLabel(l) and leaves `pc`. -/
def Obligations.GotoJumpsOrFaults : Prop :=
  ∀ (l : Label) (s : State),
    (encode (.goto l)).toNat = 3 * 2 ^ 33 + l.toNat ∧
    (∀ t, labelLookup s l = some t → exec (.goto l) s = .next { s with pc := t }) ∧
    (labelLookup s l = none → exec (.goto l) s = .next (s.withFault .unknownLabel (l.setWidth 36)))

/-- 43_system.md R111: PRINT completes from every state, emits TIME as a signed integer and advances `pc`. -/
def Obligations.PrintObservesTime : Prop :=
  encode .print = 0x800000000#36 ∧
  ∀ s : State, exec .print s = .next { s with trace := s.trace ++ [.obs s.time.toInt], pc := s.pc + 1 }

/-- 43_system.md R112: HALT completes from every state, emits the halt event and sets `halted`; `pc` is unchanged. -/
def Obligations.HaltStopsWithEvent : Prop :=
  encode .halt = 0xA00000000#36 ∧
  ∀ s : State, exec .halt s = .next { s with trace := s.trace ++ [.halt], halted := true }

/-- 10_state.md R16, with R21, R22, R24: what no instruction changes. A register it does not write, the step counter,
PROG_LEN, every slot of the instruction memory and every label entry; `halted` but by HALT; the trace but by PRINT and
HALT; the fault latch where it completes or where it does not raise. -/
def Obligations.InstructionFrame : Prop :=
  ∀ (i : Instr) (s t : State), exec i s = .next t →
    (∀ r, ¬ writes i s r → t.reg r = s.reg r) ∧
    t.steps = s.steps ∧ sameProgram s t ∧
    (i ≠ .halt → t.halted = s.halted) ∧
    (i ≠ .halt → i ≠ .print → t.trace = s.trace) ∧
    (t.fault = s.fault ∧ t.faultInfo = s.faultInfo ∨
      (t.fault = .registerOverflow ∨ t.fault = .unknownLabel) ∧ (∀ r, t.reg r = s.reg r) ∧ t.pc = s.pc)

/-- 10_state.md R16, 43_system.md R120: an instruction neither reads nor writes a register it does not name (PRINT reads
TIME): its whole effect is the same whatever that register holds, and the register keeps its value. -/
def Obligations.UnnamedRegisterIrrelevant : Prop :=
  ∀ (i : Instr) (r : Reg) (s t : State) (v : Word), touches i r = false → exec i s = .next t →
    exec i (s.setReg r v) = .next (t.setReg r v)

/-- 10_state.md R19: the new `pc` of every instruction, of the implicit halt and of any fault. -/
def Obligations.PcAdvanceTable : Prop :=
  (∀ (i : Instr) (s t : State), s.fault = .none → exec i s = .next t → t.fault = .none →
    match i with
    | .set _ _ => t.pc = s.pc + 1
    | .inc _ => t.pc = s.pc + 1
    | .decjz r l => (s.x r = 0 → labelLookup s l = some t.pc) ∧ (s.x r ≠ 0 → t.pc = s.pc + 1)
    | .goto l => labelLookup s l = some t.pc
    | .print => t.pc = s.pc + 1
    | .halt => t.pc = s.pc) ∧
  (∀ s t : State, s.running → s.progLen ≤ s.pc → step s = .next t → t.pc = s.pc) ∧
  (∀ s t : State, step s = .next t → t.fault ≠ .none → t.pc = s.pc) ∧
  ∀ budget (s t : State) (st : Status), runIteration budget s = .returns t st → t.fault ≠ .none → t.pc = s.pc

/-! ### The step cycle -/

/-- 40_step_cycle.md R85 to R87: a Running machine with a slot at `pc` counts the step and runs what the slot decodes to:
the transition of exactly that instruction, or IllegalInstruction(w). -/
def Obligations.StepRunsDecodedInstruction : Prop :=
  ∀ s : State, s.fetches →
    (∀ i, decode (fetchWord s s.pc) = .ok i → step s = exec i s.counted) ∧
    ∀ e, decode (fetchWord s s.pc) = .error e →
      step s = .next (s.counted.withFault .illegalInstruction (fetchWord s s.pc))

/-- 40_step_cycle.md R82: with a fault latched STEP changes no state and returns FAULTED with the code. -/
def Obligations.FaultedStepRefused : Prop :=
  ∀ s : State, s.isFaulted →
    step s = .next s ∧ ∀ t st, Command.step.completes s t st ↔ t = s ∧ st = .faulted s.fault

/-- 40_step_cycle.md R83: in Halted STEP changes no state and returns OK. -/
def Obligations.HaltedStepDoesNothing : Prop :=
  ∀ s : State, s.isHalted → step s = .next s ∧ ∀ t st, Command.step.completes s t st ↔ t = s ∧ st = .ok

/-- 40_step_cycle.md R84: the implicit halt sets `halted` and changes nothing else, returns OK, and takes a step of its
own: a step that fetches leaves the machine Halted only by a HALT. -/
def Obligations.ImplicitHaltIsSilent : Prop :=
  (∀ s : State, s.running → s.progLen ≤ s.pc →
    step s = .next { s with halted := true } ∧
    ∀ t st, Command.step.completes s t st ↔ t = { s with halted := true } ∧ st = .ok) ∧
  ∀ s t : State, s.fetches → step s = .next t → t.halted = true → s.atInstr .halt

/-- 60_exceptions.md R128: at the greatest step count the step raises StepCounterOverflow and changes nothing else. -/
def Obligations.StepCounterOverflowRaised : Prop :=
  ∀ s : State, s.running → s.pc < s.progLen → s.steps.toNat = 2 ^ 64 - 1 →
    step s = .next (s.withFault .stepCounterOverflow 0)

/-- 10_state.md R22, 40_step_cycle.md R86: the step counter goes up by exactly one in a step that fetches, and stays in
every other step. -/
def Obligations.StepsCountsFetches : Prop :=
  ∀ s t : State, step s = .next t →
    (s.fetches → t.steps.toNat = s.steps.toNat + 1) ∧ (¬ s.fetches → t.steps = s.steps)

/-- 40_step_cycle.md R96: the status a STEP returns. -/
def Obligations.StatusOfStep : Prop :=
  ∀ (s t : State) (st : Status), Command.step.completes s t st →
    step s = .next t ∧
    (s.isFaulted → st = .faulted s.fault) ∧
    (¬ s.isFaulted → t.isFaulted → st = .fault t.fault) ∧
    (¬ s.isFaulted → ¬ t.isFaulted → st = .ok)

/-- 20_memory.md R38, 42_control_transfer.md R108: no jump checks its target against PROG_LEN. A GOTO, or a DECJZ of a
register that is zero, to a target at or above PROG_LEN sets `pc` to that target, and the next step halts implicitly
there. -/
def Obligations.TargetsNotChecked : Prop :=
  ∀ (s : State) (l : Label) (target : SlotIndex), s.fetches →
    (s.atInstr (.goto l) ∨ ∃ r, s.atInstr (.decjz r l) ∧ s.x r = 0) → labelLookup s l = some target →
    s.progLen ≤ target →
    Host.Core.run core 2 s = .next { s with pc := target, steps := s.steps + 1, halted := true }

/-- 10_state.md R24, 20_memory.md R34, R46: no step writes PROG_LEN, the instruction memory or the label table. -/
def Obligations.ProgramImmutable : Prop :=
  ∀ s t : State, step s = .next t → sameProgram s t

/-- 43_system.md R117: the events of a step, exactly: an observation from PRINT, a halt event from HALT, otherwise none,
whether the step halts implicitly, faults or does nothing; and none from RESET and LOAD. -/
def Obligations.EventsOfStep : Prop :=
  (∀ s t : State, step s = .next t →
    (s.fetches ∧ s.atInstr .print ∧ t.trace = s.trace ++ [.obs s.time.toInt] ∧ t.fault = .none) ∨
    (s.fetches ∧ s.atInstr .halt ∧ t.trace = s.trace ++ [.halt] ∧ t.fault = .none) ∨
    (¬ (s.fetches ∧ (s.atInstr .print ∨ s.atInstr .halt)) ∧ t.trace = s.trace)) ∧
  (∀ (p q : Word) (s t : State) (st : Status), (Command.reset p q).completes s t st → t.trace = s.trace) ∧
  ∀ (img : Image) (s t : State) (st : Status), (Command.load img).completes s t st → t.trace = s.trace

/-- 43_system.md R116: the events of a run are appended in order, and a halt event is the last of its run. -/
def Obligations.HaltEventEndsTrace : Prop :=
  ∀ (n : Nat) (s t : State), s.running → Host.Core.run core n s = .next t →
    ∃ l, t.trace = s.trace ++ l ∧ .halt ∉ l.dropLast ∧ (.halt ∈ l → t.isHalted)

/-- 43_system.md R113: after a run from Running, an explicit halt leaves `pc` at a HALT inside the program and emits the
halt event; an implicit one leaves `pc` outside and emits none. -/
def Obligations.HaltKindsDistinguished : Prop :=
  ∀ s t : State, s.running → step s = .next t → t.isHalted →
    (t.atInstr .halt ∧ t.trace = s.trace ++ [.halt] ∧ t.steps = s.steps + 1) ∨
    (t.progLen ≤ t.pc ∧ t.trace = s.trace ∧ t.steps = s.steps)

/-! ### Faults -/

/-- 60_exceptions.md R129: the state at the moment of each fault that a step raises, what `pc` then points at
(`faultExplained`), and the state at RUN's budget check. -/
def Obligations.StateAtFault : Prop :=
  (∀ s t : State, s.running → step s = .next t → t.fault ≠ .none →
    t.time = s.time ∧ t.power = s.power ∧ t.pc = s.pc ∧ t.halted = false ∧ sameProgram s t ∧ t.trace = s.trace ∧
    (t.fault = .stepCounterOverflow → t.steps = s.steps ∧ s.steps.toNat = 2 ^ 64 - 1) ∧
    (t.fault ≠ .stepCounterOverflow → t.steps.toNat = s.steps.toNat + 1) ∧ t.fault ≠ .stepLimitExceeded ∧
    t.faultExplained) ∧
  ∀ (b : StepCount) (s : State), s.running → b ≤ s.steps →
    runIteration (some b) s =
      .returns (s.withFault .stepLimitExceeded (BitVec.ofNat 36 b.toNat)) (.fault .stepLimitExceeded)

/-- 60_exceptions.md R131, R133: a latched fault stays: no number of steps, and no RUN, changes anything, and each
returns FAULTED. -/
def Obligations.FaultStaysLatched : Prop :=
  ∀ s : State, s.isFaulted →
    (∀ n, Host.Core.run core n s = .next s) ∧
    (∀ t st, Command.step.completes s t st ↔ t = s ∧ st = .faulted s.fault) ∧
    ∀ budget t st, (Command.run budget).completes s t st ↔ t = s ∧ st = .faulted s.fault

/-- 10_state.md R26: in Halted and in Faulted every STEP and RUN leaves all state unchanged, for ever; only a command that
reloads or resets leaves them, and it leads to Running. -/
def Obligations.EndedUntilReload : Prop :=
  ∀ s : State, s.ended →
    (∀ n, Host.Core.run core n s = .next s) ∧
    ∀ (c : Command) (t : State) (st : Status), c.completes s t st →
      t = s ∨ (t.running ∧ ((∃ p q, c = .reset p q) ∨ ∃ img, c = .load img))

/-- 60_exceptions.md R134: which check fires first when more than one holds. -/
def Obligations.FaultPriority : Prop :=
  (∀ budget (s : State), s.isFaulted → step s = .next s ∧ runIteration budget s = .returns s (.faulted s.fault)) ∧
  (∀ budget (s : State), s.isHalted → step s = .next s ∧ runIteration budget s = .returns s .ok) ∧
  (∀ b (s : State), s.running → b ≤ s.steps →
    ∃ t, runIteration (some b) s = .returns t (.fault .stepLimitExceeded) ∧ t.halted = false) ∧
  (∀ s : State, s.running → s.progLen ≤ s.pc → s.steps = Config.maxSteps →
    step s = .next { s with halted := true }) ∧
  (∀ s : State, s.running → s.pc < s.progLen → s.steps = Config.maxSteps →
    step s = .next (s.withFault .stepCounterOverflow 0)) ∧
  ∀ s t : State, s.fetches → step s = .next t →
    (t.fault = .illegalInstruction ↔ ∃ e, decode (fetchWord s s.pc) = .error e)

/-! ### Arithmetic -/

/-- 41_register_ops.md R99, 00_scope.md R8: INC and DECJZ never wrap, and every run without RegisterOverflow agrees with the
reading of the registers as unbounded integers, for the block and for a block of any widths. What the unbounded reading
keeps of the widths is the model's choice (log entry 17). -/
def Obligations.AgreesWithUnboundedRegisters : Prop :=
  (∀ (r : Reg) (s t : State), exec (.inc r) s = .next t → s.fault = .none →
    t.x r = s.x r + 1 ∨ (t.fault = .registerOverflow ∧ t.x r = s.x r ∧ ¬ inSignedRange (s.x r + 1))) ∧
  (∀ (r : Reg) (l : Label) (s t : State), exec (.decjz r l) s = .next t → s.fault = .none → s.x r ≠ 0 →
    t.x r = s.x r - 1 ∨ (t.fault = .registerOverflow ∧ t.x r = s.x r ∧ ¬ inSignedRange (s.x r - 1))) ∧
  (∀ (n : Nat) (s t : State), Host.Core.run core n s = .next t → t.fault ≠ .registerOverflow →
    s.numbers.iterate Params.reference.unbounded n = t.numbers) ∧
  ∀ (p : Params) (n : Nat) (s : NumState), (s.iterate p n).fault ≠ .registerOverflow →
    s.iterate p.unbounded n = s.iterate p n

/-! ### Any widths -/

/-- 00_scope.md R7: at the reference values the machine that takes its widths as an argument is the block: decoding,
encoding, STEP, RUN's loop, RESET, LOAD and power-on. -/
def Obligations.BlockIsReferenceMachine : Prop :=
  (∀ w : IWord, Params.reference.decode w.toNat = (decode w).toOption.map NumInstr.ofInstr) ∧
  (∀ i : Instr, Params.reference.encode (.ofInstr i) = (encode i).toNat) ∧
  (∀ s t : State, step s = .next t → s.numbers.step Params.reference = t.numbers) ∧
  (∀ (budget : Option StepCount) (s : State),
    s.numbers.runIteration Params.reference (budget.map BitVec.toNat) = (runIteration budget s).numbers) ∧
  (∀ (p q : Word) (s t : State) (st : Status), (Command.reset p q).completes s t st →
    s.numbers.reset p.toInt q.toInt = t.numbers) ∧
  (∀ (img : Image) (s t : State) (st : Status), img.wf → (Command.load img).completes s t st →
    img.numbers.wf Params.reference ∧ s.numbers.load img.numbers = t.numbers) ∧
  State.reset.numbers = NumState.initial

/-- 30_encoding.md R61, R47 to R59, for every choice of the widths that 00_scope.md R8 permits: the word of a well-formed
instruction has ILEN bits and decodes to that instruction, and a word of ILEN bits that decodes is the word of the
well-formed instruction it decodes to. -/
def Obligations.EncodeDecodeInverseAnyWidths : Prop :=
  ∀ p : Params, p.ok →
    (∀ i : NumInstr, i.wf p → p.encode i < 2 ^ p.ILEN ∧ p.decode (p.encode i) = some i) ∧
    ∀ w i, w < 2 ^ p.ILEN → p.decode w = some i → i.wf p ∧ p.encode i = w

/-- 10_state.md R15, R20, R22 to R24, for every choice of the widths that 00_scope.md R8 permits: every step leaves every
value within its width. In particular `pc + 1` never passes PCW bits and the counter never passes STEPW bits. -/
def Obligations.StepFitsAnyWidths : Prop :=
  ∀ (p : Params) (s : NumState), p.ok → s.Fits p → (s.step p).Fits p

/-- The same for the other transitions (70_reset_and_hazards.md R147, R150, R154; 40_step_cycle.md R92): power-on; LOAD of
an image the port can carry; RESET with seeds a register can hold; an iteration of RUN with any budget. -/
def Obligations.CommandsFitAnyWidths : Prop :=
  ∀ p : Params, p.ok →
    NumState.initial.Fits p ∧
    (∀ (img : NumImage) (s : NumState), img.wf p → s.Fits p → (s.load img).Fits p) ∧
    (∀ (t q : Int) (s : NumState), p.holds t → p.holds q → s.Fits p → (s.reset t q).Fits p) ∧
    ∀ (budget : Option Nat) (s t : NumState), s.Fits p →
      (s.runIteration p budget = .again t ∨ ∃ st, s.runIteration p budget = .returns t st) → t.Fits p

/-! ### Power-on, LOAD, RESET -/

/-- 70_reset_and_hazards.md R147: the state power-on sets, from any state, with a RUN in progress or without, with no event
and nothing left in progress. That rst wins over a command presented with it is the model's choice (log entry 15). -/
def Obligations.PowerOnState : Prop :=
  ∀ (p : PortInputs) (b : Block), p.rst = 1 → ∃ (t : State) (o : PortOutputs),
    b.tick p = some (⟨t, none⟩, o) ∧ o.beats = [] ∧
    t.time = 0 ∧ t.power = 0 ∧ t.pc = 0 ∧ t.halted = false ∧ t.steps = 0 ∧ t.fault = .none ∧ t.faultInfo = 0 ∧
    t.progLen = 0 ∧ ∀ l, labelLookup t l = none

/-- 70_reset_and_hazards.md R148: after power-on the machine is Running with the empty program; a STEP halts implicitly,
and a RUN without a budget returns OK after that one step; neither executes anything. -/
def Obligations.PowerOnHoldsEmptyProgram : Prop :=
  State.reset.running ∧ State.reset.progLen = 0 ∧ (∀ l, labelLookup State.reset l = none) ∧
  step State.reset = .next { State.reset with halted := true } ∧
  (Command.run none).completes State.reset { State.reset with halted := true } .ok

/-- 70_reset_and_hazards.md R150, R151: what LOAD commits, from any state. -/
def Obligations.LoadCommitsImage : Prop :=
  ∀ (img : Image) (s : State), img.wf → ∃ t, (∀ u st, (Command.load img).completes s u st ↔ u = t ∧ st = .ok) ∧
    t.progLen.toNat = img.words.length ∧
    (∀ (i : SlotIndex) (h : i.toNat < img.words.length), fetchWord t i = img.words[i.toNat]) ∧
    (∀ l target, (l, target) ∈ img.labels → labelLookup t l = some target) ∧
    (∀ l, (∀ target, (l, target) ∉ img.labels) → labelLookup t l = none) ∧
    t.pc = 0 ∧ t.halted = false ∧ t.steps = 0 ∧ t.fault = .none ∧ t.faultInfo = 0 ∧
    t.time = s.time ∧ t.power = s.power ∧ t.trace = s.trace

/-- 70_reset_and_hazards.md R154: RESET, from any state: the seeds, the rewind, and nothing else. -/
def Obligations.ResetRestartsProgram : Prop :=
  ∀ (p q : Word) (s t : State) (st : Status), (Command.reset p q).completes s t st ↔
    t = { s with time := p, power := q, pc := 0, halted := false, steps := 0, fault := .none, faultInfo := 0 } ∧ st = .ok

/-- 70_reset_and_hazards.md R161: LOAD and RESET may be issued in either order; both orders leave the same state. -/
def Obligations.LoadResetCommute : Prop :=
  ∀ (img : Image) (p q : Word) (s a b c d : State),
    (Command.load img).completes s a .ok → (Command.reset p q).completes a b .ok →
    (Command.reset p q).completes s c .ok → (Command.load img).completes c d .ok → b = d

/-- 70_reset_and_hazards.md R157 to R159, 60_exceptions.md R122, 43_system.md R115: the command codes, the fault codes, the
status codes, the snapshot outputs and the beats of the event port. -/
def Obligations.PortCodes : Prop :=
  (∀ p : PortInputs, p.cmd = 0 → p.command = .step) ∧
  (∀ p : PortInputs, p.cmd = 1 → p.budget_valid = 0 → p.command = .run none) ∧
  (∀ p : PortInputs, p.cmd = 1 → p.budget_valid = 1 → p.command = .run (some p.budget)) ∧
  (∀ p : PortInputs, p.cmd = 2 → p.command = .reset p.seed_time p.seed_power) ∧
  (∀ p : PortInputs, p.cmd = 3 → p.command = .load p.image) ∧
  (FaultCode.none.code = 0 ∧ FaultCode.unknownLabel.code = 1 ∧ FaultCode.stepLimitExceeded.code = 2 ∧
    FaultCode.illegalInstruction.code = 3 ∧ FaultCode.registerOverflow.code = 4 ∧
    FaultCode.stepCounterOverflow.code = 5) ∧
  (Status.ok.number = 0 ∧ Status.ok.faultCode = 0) ∧
  (∀ c, (Status.fault c).number = 1 ∧ (Status.fault c).faultCode = c.code) ∧
  (∀ c, (Status.faulted c).number = 2 ∧ (Status.faulted c).faultCode = c.code) ∧
  (∀ s : State, s.snapshot.time_q = s.time ∧ s.snapshot.power_q = s.power ∧ s.snapshot.pc_q = s.pc ∧
    s.snapshot.halted_q = (if s.halted then 1 else 0) ∧ s.snapshot.steps_q = s.steps ∧
    s.snapshot.fault_q = s.fault.code ∧ s.snapshot.fault_info_q = s.faultInfo ∧ s.snapshot.prog_len_q = s.progLen) ∧
  (∀ w : Word, (Event.obs w.toInt).beat = ⟨1, 1, w⟩) ∧ Event.halt.beat = ⟨1, 2, 0⟩

/-- 70_reset_and_hazards.md R158, R160, 43_system.md R115: what the ports show. First, a command presented with none in
progress: `cmd_done` is 1 exactly where the transition leaves none in progress, and the command has then completed at the
new state with the status and code shown, the snapshot is that state's, and one beat stands for each event emitted; every
command but a RUN completes so. Second, a RUN in progress and no input: it completes in the transition in which its
iteration returns, with the outputs of that return, and is otherwise in progress after one more step. That a transition is
one iteration of a RUN is the model's choice (log entry 15), and so is what stands where no command completes (log
entry 18); the clauses on the outputs are about completions and beats only. -/
def Obligations.CompletedTransactionOutputs : Prop :=
  (∀ (p : PortInputs) (s : State) (b : Block) (o : PortOutputs), p.rst = 0 → p.cmd_valid = 1 →
    (Block.mk s none).tick p = some (b, o) →
    (o.cmd_done = 1 ↔ b.running = none) ∧
    (b.running = none → ∃ st, p.command.completes s b.state st ∧ o.status = some st.number ∧
      o.status_code = st.faultCode ∧ o.snapshot = some b.state.snapshot) ∧
    (∃ l, b.state.trace = s.trace ++ l ∧ o.beats = l.map Event.beat) ∧
    ((∀ budget, p.command ≠ .run budget) → b.running = none)) ∧
  ∀ (q : PortInputs) (budget : Option StepCount) (s : State), q.rst = 0 → q.cmd_valid = 0 →
    ∃ (b : Block) (o : PortOutputs) (l : List Event), (Block.mk s (some budget)).tick q = some (b, o) ∧
      (o.cmd_done = 1 ↔ b.running = none) ∧
      (b.running = none ↔ ∃ t st, runIteration budget s = .returns t st) ∧
      (∀ t st, runIteration budget s = .returns t st → b.state = t ∧ (Command.run budget).completes s t st ∧
        o.status = some st.number ∧ o.status_code = st.faultCode ∧ o.snapshot = some t.snapshot) ∧
      (b.running ≠ none → b.running = some budget ∧ step s = .next b.state) ∧
      b.state.trace = s.trace ++ l ∧ o.beats = l.map Event.beat

/-! ### RUN -/

/-- 40_step_cycle.md R91, 60_exceptions.md R124: RUN raises StepLimitExceeded before a step exactly when a budget is
supplied, the machine is Running and `steps >= budget`; the state is otherwise that of the last completed step. -/
def Obligations.BudgetCheckedBeforeStep : Prop :=
  ∀ (b : StepCount) (s : State), s.running →
    (b ≤ s.steps → ∀ t st, (Command.run (some b)).completes s t st ↔
      t = s.withFault .stepLimitExceeded (BitVec.ofNat 36 b.toNat) ∧ st = .fault .stepLimitExceeded) ∧
    (s.steps < b → runIteration (some b) s = runIteration none s) ∧
    ∀ t st, runIteration none s = .returns t st → st ≠ .fault .stepLimitExceeded

/-- 40_step_cycle.md R90, R92, R94: a RUN without a budget from Running returns exactly at the state where repeated STEPs
first end the run, OK where that is Halted and FAULT(c) where a fault was raised. -/
def Obligations.RunIsRepeatedStep : Prop :=
  ∀ (s t : State) (st : Status), s.running →
    ((Command.run none).completes s t st ↔
      (∃ n, Host.Core.run core n s = .next t) ∧ t.ended ∧
      st = if t.fault = .none then .ok else .fault t.fault)

/-- 60_exceptions.md R138 (the step-budget property), 40_step_cycle.md R93: a program that is still Running after every
number of steps up to the budget fails with StepLimitExceeded, at the state after those steps, with the step counter equal
to the budget. -/
def Obligations.StepBudgetFailsAtBudget : Prop :=
  ∀ (b : StepCount) (s u : State), s.running → s.steps ≤ b →
    Host.Core.run core (b.toNat - s.steps.toNat) s = .next u → u.running →
    u.steps = b ∧
    ∀ t st, (Command.run (some b)).completes s t st ↔
      t = u.withFault .stepLimitExceeded (BitVec.ofNat 36 b.toNat) ∧ st = .fault .stepLimitExceeded


/-- 70_reset_and_hazards.md R169, R147; 40_step_cycle.md R95: a RUN is preempted only between steps, by its own budget check
or by power-on. Presented at `s` and followed by `n` transitions in which the host does nothing, a RUN that has not
returned in `n + 1` iterations is in progress at the state after `n + 1` steps, has completed nothing and has shown the
events of exactly those steps; in that state power-on ends it, and the host has no move that presents a command. The
model's choices in it: the transition that presents a RUN does its first iteration, rst wins over a command presented with
it (log entry 15), and the outputs after rst show no status (log entry 18). -/
def Obligations.RunPreemptedOnlyByPowerOn : Prop :=
  ∀ (p q : PortInputs) (budget : Option StepCount) (n : Nat) (s : State),
    p.rst = 0 → p.cmd_valid = 1 → p.command = .run budget → q.rst = 0 → q.cmd_valid = 0 →
    runFor (n + 1) budget s = none →
    ∃ (u : State) (os : List PortOutputs) (l : List Event),
      Block.ticks (p :: List.replicate n q) ⟨s, none⟩ = some (⟨u, some budget⟩, os) ∧
      Host.Core.run core (n + 1) s = .next u ∧ (∀ o ∈ os, o.cmd_done = 0) ∧
      u.trace = s.trace ++ l ∧ os.flatMap PortOutputs.beats = l.map Event.beat ∧
      (∀ r : PortInputs, r.rst = 1 → (Block.mk u (some budget)).tick r = some (⟨State.reset, none⟩, idleOutputs State.reset)) ∧
      ∀ r : PortInputs, r.rst = 0 → r.cmd_valid = 1 → (Block.mk u (some budget)).tick r = none

/-- 40_step_cycle.md R95, 42_control_transfer.md R105: a GOTO to its own slot runs on, only counting steps, for as long as
the step counter can count. (With STEPW = 64 no physical run gets further; R86 then ends it, log entry 9.) -/
def Obligations.SelfLoopRunsOn : Prop :=
  ∀ (s : State) (l : Label) (n : Nat), s.running → s.atInstr (.goto l) → labelLookup s l = some s.pc →
    s.steps.toNat + n < 2 ^ 64 →
    Host.Core.run core n s = .next { s with steps := s.steps + BitVec.ofNat 64 n } ∧ runFor n none s = none

/-! ### Invariants -/

/-- The invariant of the block (20_memory.md R31; 60_exceptions.md R122 to R128, R146; 10_state.md R20; 43_system.md R113)
is kept by every step. -/
def Obligations.InvariantKeptByStep : Prop :=
  ∀ s t : State, s.Inv → step s = .next t → t.Inv

/-- The invariant of the block holds after power-on. -/
def Obligations.InvariantAtReset : Prop := State.reset.Inv

/-- Every command keeps the invariant: LOAD, RESET, STEP, and a RUN that returns. -/
def Obligations.InvariantKeptByCommands : Prop :=
  ∀ (c : Command) (s t : State) (st : Status), (∀ img, c = .load img → img.wf) → s.Inv → c.completes s t st → t.Inv

/-! ### The assembler -/

/-- 30_encoding.md R76, R77; 20_memory.md R37; 60_exceptions.md R125: an image the assembler produces fits the LOAD port,
holds no illegal word, and has no target above its length. -/
def Obligations.AssembledImagesAreSound : Prop :=
  ∀ (source : Text) (img : Image), assemble source = .ok img →
    img.wf ∧ (∀ w ∈ img.words, ∃ i : Instr, i.wf ∧ decode w = .ok i ∧ encode i = w) ∧
    ∀ d ∈ img.labels, d.2.toNat ≤ img.words.length

/-- 30_encoding.md R66, R67, R76: every normalised line that is no label definition becomes exactly one instruction, in
order, and a label stands for the number of instruction lines before it. -/
def Obligations.LinesMapToSlots : Prop :=
  ∀ (source : Text) (img : Image), assemble source = .ok img →
    (∃ is, parseLines (normalise source) = .ok is ∧
      img.words = is.map fun i => encode (i.resolve (labelNames (normalise source)))) ∧
    img.words.length = ((normalise source).filter fun line => !isLabelLine line).length ∧
    ∀ before line after, normalise source = before ++ line :: after → isLabelLine line = true →
      (labelId (labelNames (normalise source)) (definedName line),
        BitVec.ofNat 16 (before.filter fun l => !isLabelLine l).length) ∈ img.labels

/-- 30_encoding.md R76, R77; 00_scope.md R7, R8: for every choice of the widths, an image the assembler produces fits the
LOAD port, every word of it is the encoding of a well-formed instruction, and no target is above its length; and at the
reference values it is the block's image. -/
def Obligations.AssembledImagesAnyWidths : Prop :=
  (∀ (p : Params) (source : Text) (img : NumImage), p.ok → assembleFor p source = .ok img →
    img.wf p ∧ (∀ w ∈ img.words, ∃ i : NumInstr, i.wf p ∧ p.decode w = some i ∧ p.encode i = w) ∧
    ∀ d ∈ img.labels, d.2 ≤ img.words.length) ∧
  ∀ source : Text, assembleFor Params.reference source = (assemble source).map Image.numbers

/-- 93_implementation_defined.md V10: a source text with a character whose part in lines and white space the spec leaves open
is refused, whatever else it holds, and only such a text. Which characters these are is the model's choice (log
entry 12). -/
def Obligations.UndecidedTextRefused : Prop :=
  ∀ source : Text, assemble source = .error .undecidedText ↔ ∃ c ∈ source, isUndecided c = true

/-! ### The host's placing of a word -/

/-- The model's own convention (log entry 10): `withFetchWord` places an instruction so that the next step counts and runs
exactly it, and leaves registers, label table and trace. -/
def Obligations.PlacedWordRuns : Prop :=
  ∀ (s : State) (nbits w : Nat) (i : Instr), s.memoryWf → decodeTableWord nbits w = some i →
    let t := s.withFetchWord nbits w
    t.fetches ∧ step t = exec i t.counted ∧ (∀ r, t.reg r = s.reg r) ∧ t.ltab = s.ltab ∧ t.trace = s.trace
end

