-- ==== Sys2Proof/Laws/Decode.lean ====
section
/-! SUPPORT. The fields of a packed word, and small laws of the operand forms. -/

namespace Sys2Proof

theorem toNat_pack (op : BitVec 3) (r : BitVec 1) (opd : Word) :
    (pack op r opd).toNat = op.toNat * 2 ^ 33 + r.toNat * 2 ^ 32 + opd.toNat := by
  have := op.isLt
  have := r.isLt
  have := opd.isLt
  simp only [pack, BitVec.toNat_ofNat]
  omega

theorem toNat_opField (w : IWord) : (opField w).toNat = w.toNat / 2 ^ 33 % 2 ^ 3 := by
  simp [opField, Nat.shiftRight_eq_div_pow]

theorem toNat_regField (w : IWord) : (regField w).toNat = w.toNat / 2 ^ 32 % 2 ^ 1 := by
  simp [regField, Nat.shiftRight_eq_div_pow]

theorem toNat_opdField (w : IWord) : (opdField w).toNat = w.toNat % 2 ^ 32 := by
  simp [opdField, Nat.shiftRight_eq_div_pow]

theorem toNat_labelHigh (opd : Word) : (labelHigh opd).toNat = opd.toNat / 2 ^ 16 % 2 ^ 16 := by
  simp [labelHigh, Nat.shiftRight_eq_div_pow]

theorem toNat_labelLow (opd : Word) : (labelLow opd).toNat = opd.toNat % 2 ^ 16 := by
  simp [labelLow, Nat.shiftRight_eq_div_pow]

theorem toNat_zextLabel (l : Label) : (zextLabel l).toNat = l.toNat := by
  have := l.isLt
  simp only [zextLabel, BitVec.toNat_setWidth]
  omega

@[simp] theorem opField_pack (op : BitVec 3) (r : BitVec 1) (opd : Word) : opField (pack op r opd) = op := by
  have := op.isLt
  have := r.isLt
  have := opd.isLt
  apply BitVec.eq_of_toNat_eq
  rw [toNat_opField, toNat_pack]
  omega

@[simp] theorem regField_pack (op : BitVec 3) (r : BitVec 1) (opd : Word) : regField (pack op r opd) = r := by
  have := r.isLt
  have := opd.isLt
  apply BitVec.eq_of_toNat_eq
  rw [toNat_regField, toNat_pack]
  omega

@[simp] theorem opdField_pack (op : BitVec 3) (r : BitVec 1) (opd : Word) : opdField (pack op r opd) = opd := by
  have := opd.isLt
  apply BitVec.eq_of_toNat_eq
  rw [toNat_opdField, toNat_pack]
  omega

/-- A word is its three fields. -/
theorem pack_fields (w : IWord) : pack (opField w) (regField w) (opdField w) = w := by
  have := w.isLt
  apply BitVec.eq_of_toNat_eq
  rw [toNat_pack, toNat_opField, toNat_regField, toNat_opdField]
  omega

@[simp] theorem ofBit_toBit (r : Reg) : Reg.ofBit r.toBit = r := by cases r <;> rfl

@[simp] theorem toBit_ofBit (b : BitVec 1) : (Reg.ofBit b).toBit = b := by revert b; decide

@[simp] theorem labelLow_zextLabel (l : Label) : labelLow (zextLabel l) = l := by
  have := l.isLt
  apply BitVec.eq_of_toNat_eq
  rw [toNat_labelLow, toNat_zextLabel]
  omega

@[simp] theorem labelHigh_zextLabel (l : Label) : labelHigh (zextLabel l) = 0 := by
  have := l.isLt
  apply BitVec.eq_of_toNat_eq
  rw [toNat_labelHigh, toNat_zextLabel]
  simp only [BitVec.ofNat_eq_ofNat, BitVec.toNat_ofNat]
  omega

/-- An operand with zero high bits is the zero extension of its label. -/
theorem zextLabel_labelLow {opd : Word} (h : labelHigh opd = 0) : zextLabel (labelLow opd) = opd := by
  have := opd.isLt
  have hz : (labelHigh opd).toNat = 0 := by rw [h]; rfl
  rw [toNat_labelHigh] at hz
  apply BitVec.eq_of_toNat_eq
  rw [toNat_zextLabel, toNat_labelLow]
  omega

/-- `sext (trunc v) = v` for a value of the signed range (00_scope.md R9). -/
theorem sext_trunc {v : Int} (h : inSignedRange v) : sext (trunc v) = v := by
  simp only [inSignedRange, Config.minReg, Config.maxReg] at h
  simp only [sext, trunc]
  rw [BitVec.toInt_ofInt, Int.bmod_eq_of_le] <;> omega

/-- Every register value is in the signed range (10_state.md R15). -/
theorem sext_inRange (w : Word) : inSignedRange (sext w) := by
  have h1 := BitVec.le_toInt w
  have h2 := BitVec.toInt_lt (x := w)
  simp only [inSignedRange, sext]
  constructor <;> norm_num at * <;> omega

@[simp] theorem trunc_sext (w : Word) : trunc (sext w) = w := BitVec.ofInt_toInt

/-- The decoder gives well-formed instructions only. -/
theorem decode_wf {w : IWord} {i : Instr} (h : decode w = .ok i) : i.wf := by
  unfold decode at h
  split at h
  · cases h
    exact decide_eq_true (sext_inRange _)
  · unfold decodeInc at h
    split_ifs at h
    cases h
    rfl
  · unfold decodeDecjz at h
    split_ifs at h
    cases h
    rfl
  · unfold decodeGoto at h
    split_ifs at h
    cases h
    rfl
  · unfold decodePlain at h
    split_ifs at h
    cases h
    rfl
  · unfold decodePlain at h
    split_ifs at h
    cases h
    rfl
  · cases h

end Sys2Proof
end

