-- ==== Sys2Proof/Laws/Memory.lean ====
section
/-! SUPPORT. The laws of the two memories: read after write, the canonical form that every operation keeps, and that equal
contents are equal lists. -/

namespace Sys2Proof.Machine

variable {α : Type}

@[simp] theorem read_nil (d : α) (k : Nat) : Memory.read d [] k = d := rfl

@[simp] theorem read_cons (d : α) (c : Nat × α) (m : Memory α) (k : Nat) :
    Memory.read d (c :: m) k = if k = c.1 then c.2 else Memory.read d m k := rfl

/-- An index that no entry names reads as `d`. -/
theorem read_of_not_listed (d : α) {m : Memory α} {k : Nat} (h : ∀ c ∈ m, c.1 ≠ k) : Memory.read d m k = d := by
  induction m with
  | nil => rfl
  | cons c m ih =>
    have hc : k ≠ c.1 := fun e => h c (by simp) e.symm
    simp [hc, ih fun c' hc' => h c' (by simp [hc'])]

/-- In canonical form the tail of a memory reads as `d` at and below its head's index. -/
theorem read_tail (d : α) {n : Nat} {c : Nat × α} {m : Memory α} (h : Memory.wf d n (c :: m)) {k : Nat} (hk : k ≤ c.1) :
    Memory.read d m k = d :=
  read_of_not_listed d fun c' hc' => by
    have := List.rel_of_pairwise_cons h.1 hc'
    omega

theorem wf_tail {d : α} {n : Nat} {c : Nat × α} {m : Memory α} (h : Memory.wf d n (c :: m)) : Memory.wf d n m :=
  ⟨h.1.of_cons, fun c' hc' => h.2 c' (by simp [hc'])⟩

theorem wf_cons {d : α} {n : Nat} {c : Nat × α} {m : Memory α} (h : Memory.wf d n m) (hn : c.1 < n) (hd : c.2 ≠ d)
    (hlt : ∀ c' ∈ m, c.1 < c'.1) : Memory.wf d n (c :: m) :=
  ⟨List.pairwise_cons.2 ⟨hlt, h.1⟩, fun c' hc' => by
    rcases List.mem_cons.1 hc' with rfl | hm
    · exact ⟨hn, hd⟩
    · exact h.2 c' hm⟩

theorem wf_nil (d : α) (n : Nat) : Memory.wf d n [] := ⟨List.Pairwise.nil, by simp⟩

/-- Two memories in canonical form that read the same everywhere are the same list. -/
theorem eq_of_read_eq {d : α} {n : Nat} {m m' : Memory α} (h : Memory.wf d n m) (h' : Memory.wf d n m')
    (e : ∀ k, Memory.read d m k = Memory.read d m' k) : m = m' := by
  induction m generalizing m' with
  | nil =>
    cases m' with
    | nil => rfl
    | cons c m' => exact absurd (by simpa using (e c.1).symm) (h'.2 c (by simp)).2
  | cons c m ih =>
    cases m' with
    | nil => exact absurd (by simpa using e c.1) (h.2 c (by simp)).2
    | cons c' m' =>
      have hc : c.1 = c'.1 := by
        rcases Nat.lt_trichotomy c.1 c'.1 with hlt | heq | hlt
        · have := e c.1
          rw [read_cons, if_pos rfl, read_cons, if_neg (by omega), read_tail d h' hlt.le] at this
          exact absurd this (h.2 c (by simp)).2
        · exact heq
        · have := e c'.1
          rw [read_cons, if_neg (by omega), read_tail d h hlt.le, read_cons, if_pos rfl] at this
          exact absurd this.symm (h'.2 c' (by simp)).2
      have hv : c.2 = c'.2 := by simpa [hc] using e c.1
      have htail : m = m' := ih (wf_tail h) (wf_tail h') fun k => by
        by_cases hk : k = c.1
        · rw [read_tail d h hk.le, read_tail d h' (hk.trans hc).le]
        · simpa [hk, hc ▸ hk] using e k
      rw [htail, Prod.ext hc hv]

variable [DecidableEq α]

/-- The indexes of a memory after a write are those before, and perhaps the one written. -/
theorem write_index (d : α) {m : Memory α} {k : Nat} {v : α} {c : Nat × α} (h : c ∈ Memory.write d m k v) :
    c = (k, v) ∧ v ≠ d ∨ c ∈ m := by
  induction m with
  | nil =>
    by_cases hv : v = d
    · simp [Memory.write, hv] at h
    · simp [Memory.write, hv] at h
      exact .inl ⟨h, hv⟩
  | cons c' m ih =>
    simp only [Memory.write] at h
    split at h
    · split at h
      · exact .inr h
      · rename_i hv
        rcases List.mem_cons.1 h with rfl | h
        · exact .inl ⟨rfl, hv⟩
        · exact .inr h
    · split at h
      · split at h
        · exact .inr (List.mem_cons_of_mem _ h)
        · rename_i hv
          rcases List.mem_cons.1 h with rfl | h
          · exact .inl ⟨rfl, hv⟩
          · exact .inr (List.mem_cons_of_mem _ h)
      · rcases List.mem_cons.1 h with rfl | h
        · exact .inr (List.mem_cons_self ..)
        · exact (ih h).imp_right (List.mem_cons_of_mem _)

/-- A write keeps the canonical form. -/
theorem write_wf {d : α} {n : Nat} {m : Memory α} (h : Memory.wf d n m) {k : Nat} (hk : k < n) (v : α) :
    Memory.wf d n (Memory.write d m k v) := by
  induction m with
  | nil =>
    by_cases hv : v = d
    · simpa [Memory.write, hv] using wf_nil d n
    · simpa [Memory.write, hv] using wf_cons (c := (k, v)) (wf_nil d n) hk hv (by simp)
  | cons c m ih =>
    have hrel : ∀ c' ∈ m, c.1 < c'.1 := fun c' hc' => List.rel_of_pairwise_cons h.1 hc'
    simp only [Memory.write]
    split
    · rename_i hlt
      split
      · exact h
      · rename_i hv
        refine wf_cons h hk hv fun c' hc' => ?_
        rcases List.mem_cons.1 hc' with rfl | hm
        · exact hlt
        · exact hlt.trans (hrel c' hm)
    · split
      · rename_i heq
        split
        · exact wf_tail h
        · rename_i hv
          exact wf_cons (wf_tail h) hk hv fun c' hc' => by
            have := hrel c' hc'
            simp only [heq]
            exact this
      · refine wf_cons (ih (wf_tail h)) (h.2 c (by simp)).1 (h.2 c (by simp)).2 fun c' hc' => ?_
        rcases write_index d hc' with ⟨rfl, -⟩ | hm
        · show c.1 < k
          omega
        · exact hrel c' hm

/-- Reading what was written. -/
theorem read_write_same {d : α} {n : Nat} {m : Memory α} (h : Memory.wf d n m) (k : Nat) (v : α) :
    Memory.read d (Memory.write d m k v) k = v := by
  induction m with
  | nil => by_cases hv : v = d <;> simp [Memory.write, hv]
  | cons c m ih =>
    simp only [Memory.write]
    split
    · rename_i hlt
      split
      · rename_i hv
        rw [read_cons, if_neg (by omega), read_tail d h hlt.le, hv]
      · simp
    · split
      · rename_i heq
        split
        · rename_i hv
          rw [read_tail d h heq.le, hv]
        · simp
      · rename_i hne
        rw [read_cons, if_neg hne, ih (wf_tail h)]

/-- A write leaves every other index alone. -/
theorem read_write_other (d : α) (m : Memory α) {k k' : Nat} (hk : k' ≠ k) (v : α) :
    Memory.read d (Memory.write d m k v) k' = Memory.read d m k' := by
  induction m with
  | nil => by_cases hv : v = d <;> simp [Memory.write, hv, hk]
  | cons c m ih =>
    simp only [Memory.write]
    split
    · split
      · rfl
      · simp [hk]
    · split
      · rename_i heq
        split <;> simp [hk, ← heq]
      · simp [ih]

/-- The indexes of a listed program start at the first and end before the last. -/
theorem ofListFrom_index (d : α) {k : Nat} {vs : List α} {c : Nat × α} (h : c ∈ Memory.ofListFrom d k vs) :
    k ≤ c.1 ∧ c.1 < k + vs.length ∧ c.2 ≠ d := by
  induction vs generalizing k with
  | nil => simp [Memory.ofListFrom] at h
  | cons v vs ih =>
    simp only [Memory.ofListFrom] at h
    split at h
    · have := ih h
      simp only [List.length_cons]
      exact ⟨by omega, by omega, this.2.2⟩
    · rename_i hv
      rcases List.mem_cons.1 h with rfl | h
      · exact ⟨le_rfl, by simp, hv⟩
      · have := ih h
        simp only [List.length_cons]
        exact ⟨by omega, by omega, this.2.2⟩

/-- A listed program is in canonical form. -/
theorem ofListFrom_wf (d : α) {n k : Nat} {vs : List α} (h : k + vs.length ≤ n) :
    Memory.wf d n (Memory.ofListFrom d k vs) := by
  induction vs generalizing k with
  | nil => exact wf_nil d n
  | cons v vs ih =>
    simp only [List.length_cons] at h
    simp only [Memory.ofListFrom]
    split
    · exact ih (by omega)
    · rename_i hv
      exact wf_cons (ih (by omega)) (show k < n by omega) hv fun c hc => (ofListFrom_index d hc).1

/-- Reading a listed program. -/
theorem read_ofListFrom (d : α) (k i : Nat) (vs : List α) :
    Memory.read d (Memory.ofListFrom d k vs) (k + i) = vs.getD i d := by
  induction vs generalizing k i with
  | nil => simp [Memory.ofListFrom]
  | cons v vs ih =>
    simp only [Memory.ofListFrom]
    cases i with
    | zero =>
      split
      · rename_i hv
        rw [read_of_not_listed d fun c hc => by have := (ofListFrom_index d hc).1; omega]
        simp [hv]
      · simp
    | succ i =>
      have := ih (k + 1) i
      rw [show k + (i + 1) = k + 1 + i by omega]
      split
      · simpa using this
      · rw [read_cons, if_neg (by show k + 1 + i ≠ k; omega)]
        simpa using this

omit [DecidableEq α]

/-- The label table of an image is in canonical form. -/
theorem labelTable_wf (entries : List (Label × SlotIndex)) :
    Memory.wf Config.unlistedLabel (2 ^ Config.LBLW) (labelTable entries) := by
  induction entries with
  | nil => exact wf_nil _ _
  | cons e entries ih => exact write_wf ih e.1.isLt _

/-- Power-on leaves both memories in canonical form. -/
theorem reset_memoryWf : State.reset.memoryWf := ⟨wf_nil _ _, wf_nil _ _⟩

/-- LOAD leaves both memories in canonical form. -/
theorem loadImage_memoryWf {img : Image} (h : img.wf) (s : State) : (loadImage img s).memoryWf := by
  simp only [Image.wf, Bool.and_eq_true, decide_eq_true_eq] at h
  exact ⟨ofListFrom_wf _ (by simpa using h.1), labelTable_wf _⟩

/-- Placing a word where the next step fetches keeps both memories in canonical form. -/
theorem placeFetchWord_memoryWf {s : State} (h : s.memoryWf) (nbits w : Nat) : (placeFetchWord s nbits w).memoryWf := by
  refine ⟨write_wf h.1 ?_ _, h.2⟩
  unfold placeSlot
  split
  · decide
  · rename_i hp
    have hne : s.pc.toNat ≠ 65535 := fun e => hp (BitVec.eq_of_toNat_eq (by simpa using e))
    have := s.pc.isLt
    simp only [Config.MAXLEN, Config.PCW]
    omega

end Sys2Proof.Machine
end

