-- ==== Sys2Proof/Laws/State.lean ====
section
/-! SUPPORT. One lemma per field of State and update of it, and what registers, fetches and lookups read after one. -/

namespace Sys2Proof.Machine

variable (s : State)

@[simp] theorem setPc_time (t : SlotIndex) : (s.setPc t).time = s.time := rfl
@[simp] theorem setPc_power (t : SlotIndex) : (s.setPc t).power = s.power := rfl
@[simp] theorem setPc_pc (t : SlotIndex) : (s.setPc t).pc = t := rfl
@[simp] theorem setPc_halted (t : SlotIndex) : (s.setPc t).halted = s.halted := rfl
@[simp] theorem setPc_steps (t : SlotIndex) : (s.setPc t).steps = s.steps := rfl
@[simp] theorem setPc_fault (t : SlotIndex) : (s.setPc t).fault = s.fault := rfl
@[simp] theorem setPc_faultInfo (t : SlotIndex) : (s.setPc t).faultInfo = s.faultInfo := rfl
@[simp] theorem setPc_progLen (t : SlotIndex) : (s.setPc t).progLen = s.progLen := rfl
@[simp] theorem setPc_imem (t : SlotIndex) : (s.setPc t).imem = s.imem := rfl
@[simp] theorem setPc_ltab (t : SlotIndex) : (s.setPc t).ltab = s.ltab := rfl
@[simp] theorem setPc_trace (t : SlotIndex) : (s.setPc t).trace = s.trace := rfl
@[simp] theorem setPc_reg (t : SlotIndex) (r : Reg) : (s.setPc t).reg r = s.reg r := by cases r <;> rfl
@[simp] theorem setPc_x (t : SlotIndex) (r : Reg) : (s.setPc t).x r = s.x r := by cases r <;> rfl
@[simp] theorem setPc_fetchWord (t : SlotIndex) (i : SlotIndex) : fetchWord (s.setPc t) i = fetchWord s i := rfl
@[simp] theorem setPc_labelLookup (t : SlotIndex) (l : Label) : labelLookup (s.setPc t) l = labelLookup s l := rfl

@[simp] theorem advance_time : (s.advance).time = s.time := rfl
@[simp] theorem advance_power : (s.advance).power = s.power := rfl
@[simp] theorem advance_pc : (s.advance).pc = s.pc + 1 := rfl
@[simp] theorem advance_halted : (s.advance).halted = s.halted := rfl
@[simp] theorem advance_steps : (s.advance).steps = s.steps := rfl
@[simp] theorem advance_fault : (s.advance).fault = s.fault := rfl
@[simp] theorem advance_faultInfo : (s.advance).faultInfo = s.faultInfo := rfl
@[simp] theorem advance_progLen : (s.advance).progLen = s.progLen := rfl
@[simp] theorem advance_imem : (s.advance).imem = s.imem := rfl
@[simp] theorem advance_ltab : (s.advance).ltab = s.ltab := rfl
@[simp] theorem advance_trace : (s.advance).trace = s.trace := rfl
@[simp] theorem advance_reg (r : Reg) : (s.advance).reg r = s.reg r := by cases r <;> rfl
@[simp] theorem advance_x (r : Reg) : (s.advance).x r = s.x r := by cases r <;> rfl
@[simp] theorem advance_fetchWord (i : SlotIndex) : fetchWord (s.advance) i = fetchWord s i := rfl
@[simp] theorem advance_labelLookup (l : Label) : labelLookup (s.advance) l = labelLookup s l := rfl

@[simp] theorem countStep_time : (s.countStep).time = s.time := rfl
@[simp] theorem countStep_power : (s.countStep).power = s.power := rfl
@[simp] theorem countStep_pc : (s.countStep).pc = s.pc := rfl
@[simp] theorem countStep_halted : (s.countStep).halted = s.halted := rfl
@[simp] theorem countStep_steps : (s.countStep).steps = s.steps + 1 := rfl
@[simp] theorem countStep_fault : (s.countStep).fault = s.fault := rfl
@[simp] theorem countStep_faultInfo : (s.countStep).faultInfo = s.faultInfo := rfl
@[simp] theorem countStep_progLen : (s.countStep).progLen = s.progLen := rfl
@[simp] theorem countStep_imem : (s.countStep).imem = s.imem := rfl
@[simp] theorem countStep_ltab : (s.countStep).ltab = s.ltab := rfl
@[simp] theorem countStep_trace : (s.countStep).trace = s.trace := rfl
@[simp] theorem countStep_reg (r : Reg) : (s.countStep).reg r = s.reg r := by cases r <;> rfl
@[simp] theorem countStep_x (r : Reg) : (s.countStep).x r = s.x r := by cases r <;> rfl
@[simp] theorem countStep_fetchWord (i : SlotIndex) : fetchWord (s.countStep) i = fetchWord s i := rfl
@[simp] theorem countStep_labelLookup (l : Label) : labelLookup (s.countStep) l = labelLookup s l := rfl

@[simp] theorem setHalted_time : (s.setHalted).time = s.time := rfl
@[simp] theorem setHalted_power : (s.setHalted).power = s.power := rfl
@[simp] theorem setHalted_pc : (s.setHalted).pc = s.pc := rfl
@[simp] theorem setHalted_halted : (s.setHalted).halted = true := rfl
@[simp] theorem setHalted_steps : (s.setHalted).steps = s.steps := rfl
@[simp] theorem setHalted_fault : (s.setHalted).fault = s.fault := rfl
@[simp] theorem setHalted_faultInfo : (s.setHalted).faultInfo = s.faultInfo := rfl
@[simp] theorem setHalted_progLen : (s.setHalted).progLen = s.progLen := rfl
@[simp] theorem setHalted_imem : (s.setHalted).imem = s.imem := rfl
@[simp] theorem setHalted_ltab : (s.setHalted).ltab = s.ltab := rfl
@[simp] theorem setHalted_trace : (s.setHalted).trace = s.trace := rfl
@[simp] theorem setHalted_reg (r : Reg) : (s.setHalted).reg r = s.reg r := by cases r <;> rfl
@[simp] theorem setHalted_x (r : Reg) : (s.setHalted).x r = s.x r := by cases r <;> rfl
@[simp] theorem setHalted_fetchWord (i : SlotIndex) : fetchWord (s.setHalted) i = fetchWord s i := rfl
@[simp] theorem setHalted_labelLookup (l : Label) : labelLookup (s.setHalted) l = labelLookup s l := rfl

@[simp] theorem emit_time (e : Event) : (s.emit e).time = s.time := rfl
@[simp] theorem emit_power (e : Event) : (s.emit e).power = s.power := rfl
@[simp] theorem emit_pc (e : Event) : (s.emit e).pc = s.pc := rfl
@[simp] theorem emit_halted (e : Event) : (s.emit e).halted = s.halted := rfl
@[simp] theorem emit_steps (e : Event) : (s.emit e).steps = s.steps := rfl
@[simp] theorem emit_fault (e : Event) : (s.emit e).fault = s.fault := rfl
@[simp] theorem emit_faultInfo (e : Event) : (s.emit e).faultInfo = s.faultInfo := rfl
@[simp] theorem emit_progLen (e : Event) : (s.emit e).progLen = s.progLen := rfl
@[simp] theorem emit_imem (e : Event) : (s.emit e).imem = s.imem := rfl
@[simp] theorem emit_ltab (e : Event) : (s.emit e).ltab = s.ltab := rfl
@[simp] theorem emit_trace (e : Event) : (s.emit e).trace = s.trace ++ [e] := rfl
@[simp] theorem emit_reg (e : Event) (r : Reg) : (s.emit e).reg r = s.reg r := by cases r <;> rfl
@[simp] theorem emit_x (e : Event) (r : Reg) : (s.emit e).x r = s.x r := by cases r <;> rfl
@[simp] theorem emit_fetchWord (e : Event) (i : SlotIndex) : fetchWord (s.emit e) i = fetchWord s i := rfl
@[simp] theorem emit_labelLookup (e : Event) (l : Label) : labelLookup (s.emit e) l = labelLookup s l := rfl

@[simp] theorem raise_time (c : FaultCode) (info : Nat) : (raise c info s).time = s.time := rfl
@[simp] theorem raise_power (c : FaultCode) (info : Nat) : (raise c info s).power = s.power := rfl
@[simp] theorem raise_pc (c : FaultCode) (info : Nat) : (raise c info s).pc = s.pc := rfl
@[simp] theorem raise_halted (c : FaultCode) (info : Nat) : (raise c info s).halted = s.halted := rfl
@[simp] theorem raise_steps (c : FaultCode) (info : Nat) : (raise c info s).steps = s.steps := rfl
@[simp] theorem raise_fault (c : FaultCode) (info : Nat) : (raise c info s).fault = c := rfl
@[simp] theorem raise_faultInfo (c : FaultCode) (info : Nat) : (raise c info s).faultInfo = BitVec.ofNat 36 info := rfl
@[simp] theorem raise_progLen (c : FaultCode) (info : Nat) : (raise c info s).progLen = s.progLen := rfl
@[simp] theorem raise_imem (c : FaultCode) (info : Nat) : (raise c info s).imem = s.imem := rfl
@[simp] theorem raise_ltab (c : FaultCode) (info : Nat) : (raise c info s).ltab = s.ltab := rfl
@[simp] theorem raise_trace (c : FaultCode) (info : Nat) : (raise c info s).trace = s.trace := rfl
@[simp] theorem raise_reg (c : FaultCode) (info : Nat) (r : Reg) : (raise c info s).reg r = s.reg r := by cases r <;> rfl
@[simp] theorem raise_x (c : FaultCode) (info : Nat) (r : Reg) : (raise c info s).x r = s.x r := by cases r <;> rfl
@[simp] theorem raise_fetchWord (c : FaultCode) (info : Nat) (i : SlotIndex) : fetchWord (raise c info s) i = fetchWord s i := rfl
@[simp] theorem raise_labelLookup (c : FaultCode) (info : Nat) (l : Label) : labelLookup (raise c info s) l = labelLookup s l := rfl

@[simp] theorem rewind_time : (rewind s).time = s.time := rfl
@[simp] theorem rewind_power : (rewind s).power = s.power := rfl
@[simp] theorem rewind_pc : (rewind s).pc = 0 := rfl
@[simp] theorem rewind_halted : (rewind s).halted = false := rfl
@[simp] theorem rewind_steps : (rewind s).steps = 0 := rfl
@[simp] theorem rewind_fault : (rewind s).fault = .none := rfl
@[simp] theorem rewind_faultInfo : (rewind s).faultInfo = 0 := rfl
@[simp] theorem rewind_progLen : (rewind s).progLen = s.progLen := rfl
@[simp] theorem rewind_imem : (rewind s).imem = s.imem := rfl
@[simp] theorem rewind_ltab : (rewind s).ltab = s.ltab := rfl
@[simp] theorem rewind_trace : (rewind s).trace = s.trace := rfl
@[simp] theorem rewind_reg (r : Reg) : (rewind s).reg r = s.reg r := by cases r <;> rfl
@[simp] theorem rewind_x (r : Reg) : (rewind s).x r = s.x r := by cases r <;> rfl
@[simp] theorem rewind_fetchWord (i : SlotIndex) : fetchWord (rewind s) i = fetchWord s i := rfl
@[simp] theorem rewind_labelLookup (l : Label) : labelLookup (rewind s) l = labelLookup s l := rfl

@[simp] theorem setReg_pc (r : Reg) (v : Word) : (s.setReg r v).pc = s.pc := by cases r <;> rfl
@[simp] theorem setReg_halted (r : Reg) (v : Word) : (s.setReg r v).halted = s.halted := by cases r <;> rfl
@[simp] theorem setReg_steps (r : Reg) (v : Word) : (s.setReg r v).steps = s.steps := by cases r <;> rfl
@[simp] theorem setReg_fault (r : Reg) (v : Word) : (s.setReg r v).fault = s.fault := by cases r <;> rfl
@[simp] theorem setReg_faultInfo (r : Reg) (v : Word) : (s.setReg r v).faultInfo = s.faultInfo := by cases r <;> rfl
@[simp] theorem setReg_progLen (r : Reg) (v : Word) : (s.setReg r v).progLen = s.progLen := by cases r <;> rfl
@[simp] theorem setReg_imem (r : Reg) (v : Word) : (s.setReg r v).imem = s.imem := by cases r <;> rfl
@[simp] theorem setReg_ltab (r : Reg) (v : Word) : (s.setReg r v).ltab = s.ltab := by cases r <;> rfl
@[simp] theorem setReg_trace (r : Reg) (v : Word) : (s.setReg r v).trace = s.trace := by cases r <;> rfl
@[simp] theorem setReg_fetchWord (r : Reg) (v : Word) (i : SlotIndex) : fetchWord (s.setReg r v) i = fetchWord s i := by
  cases r <;> rfl
@[simp] theorem setReg_labelLookup (r : Reg) (v : Word) (l : Label) : labelLookup (s.setReg r v) l = labelLookup s l := by
  cases r <;> rfl
@[simp] theorem setReg_reg_same (r : Reg) (v : Word) : (s.setReg r v).reg r = v := by cases r <;> rfl
theorem setReg_reg_other {r r' : Reg} (h : r' ≠ r) (v : Word) : (s.setReg r v).reg r' = s.reg r' := by
  cases r <;> cases r' <;> first | rfl | exact absurd rfl h
@[simp] theorem setReg_x_same (r : Reg) (v : Word) : (s.setReg r v).x r = v.toInt := by cases r <;> rfl
theorem setReg_x_other {r r' : Reg} (h : r' ≠ r) (v : Word) : (s.setReg r v).x r' = s.x r' := by
  cases r <;> cases r' <;> first | rfl | exact absurd rfl h
@[simp] theorem reg_time : s.reg .time = s.time := rfl
@[simp] theorem reg_power : s.reg .power = s.power := rfl
theorem x_eq_toInt (r : Reg) : s.x r = (s.reg r).toInt := rfl

end Sys2Proof.Machine
end

