-- ==== Sys2Proof/Laws/Ops.lean ====
section
/-! SUPPORT. What each shared operation can do, said once. -/

namespace Sys2Proof.Machine

/-- The zero test is equality of the signed value with zero (41_register_ops.md R100). -/
theorem isZero_iff (s : State) (r : Reg) : isZero (s.reg r) = true ↔ s.x r = 0 := by
  rw [x_eq_toInt, isZero, beq_iff_eq]
  exact ⟨fun h => by rw [h]; rfl, fun h => BitVec.eq_of_toInt_eq (by simpa using h)⟩

theorem x_inRange (s : State) (r : Reg) : inSignedRange (s.x r) := sext_inRange _

theorem narrow?_of_inRange {n : Int} (h : inSignedRange n) : narrow? n = some (trunc n) := if_pos h

theorem narrow?_of_not_inRange {n : Int} (h : ¬ inSignedRange n) : narrow? n = none := if_neg h

/-- An addition completes with the exact result, or raises RegisterOverflow and writes no register. -/
theorem addTo_cases (r : Reg) (d : Int) (s : State) :
    (inSignedRange (s.x r + d) ∧ addTo r d s = (s.setReg r (trunc (s.x r + d))).advance) ∨
    (¬ inSignedRange (s.x r + d) ∧ addTo r d s = raise .registerOverflow (regNumber r) s) := by
  by_cases h : inSignedRange (s.x r + d)
  · exact .inl ⟨h, by simp [addTo, narrow?_of_inRange h]⟩
  · exact .inr ⟨h, by simp [addTo, narrow?_of_not_inRange h]⟩

/-- A jump goes to the label's target, or raises UnknownLabel and leaves `pc`. -/
theorem jump_cases (l : Label) (s : State) :
    (∃ t, labelLookup s l = some t ∧ jump l s = s.setPc t) ∨
    (labelLookup s l = none ∧ jump l s = raise .unknownLabel l.toNat s) := by
  cases h : labelLookup s l with
  | none => exact .inr ⟨rfl, by simp [jump, h]⟩
  | some t => exact .inl ⟨t, rfl, by simp [jump, h]⟩

section
variable (r : Reg) (d : Int) (l : Label) (s : State)

@[simp] theorem addTo_halted : (addTo r d s).halted = s.halted := by unfold addTo; split <;> simp
@[simp] theorem addTo_steps : (addTo r d s).steps = s.steps := by unfold addTo; split <;> simp
@[simp] theorem addTo_progLen : (addTo r d s).progLen = s.progLen := by unfold addTo; split <;> simp
@[simp] theorem addTo_imem : (addTo r d s).imem = s.imem := by unfold addTo; split <;> simp
@[simp] theorem addTo_ltab : (addTo r d s).ltab = s.ltab := by unfold addTo; split <;> simp
@[simp] theorem addTo_trace : (addTo r d s).trace = s.trace := by unfold addTo; split <;> simp

@[simp] theorem jump_time : (jump l s).time = s.time := by unfold jump; split <;> simp
@[simp] theorem jump_power : (jump l s).power = s.power := by unfold jump; split <;> simp
@[simp] theorem jump_halted : (jump l s).halted = s.halted := by unfold jump; split <;> simp
@[simp] theorem jump_steps : (jump l s).steps = s.steps := by unfold jump; split <;> simp
@[simp] theorem jump_progLen : (jump l s).progLen = s.progLen := by unfold jump; split <;> simp
@[simp] theorem jump_imem : (jump l s).imem = s.imem := by unfold jump; split <;> simp
@[simp] theorem jump_ltab : (jump l s).ltab = s.ltab := by unfold jump; split <;> simp
@[simp] theorem jump_trace : (jump l s).trace = s.trace := by unfold jump; split <;> simp

end

/-- Every instruction answers a next state from every state. -/
theorem exec_answers_next (i : Instr) (s : State) : ∃ t, exec i s = .next t := by
  cases i <;> exact ⟨_, rfl⟩

end Sys2Proof.Machine
end

