-- ==== Sys2Proof/Laws/Parametric.lean ====
section
/-! SUPPORT. The machine of any widths: its fields and words, what its shared operations can do, and how the block's values
read as numbers. -/

namespace Sys2Proof.Machine

theorem two_pow_XLEN (p : Params) (h : 2 ≤ p.XLEN) : 2 ^ p.XLEN = 2 * 2 ^ (p.XLEN - 1) := by
  conv_lhs => rw [show p.XLEN = (p.XLEN - 1) + 1 by omega, Nat.pow_succ]
  omega

theorem two_pow_XLEN_succ (p : Params) : 2 ^ (p.XLEN + 1) = 2 * 2 ^ p.XLEN := by rw [Nat.pow_succ]; omega

theorem two_pow_ILEN (p : Params) : 2 ^ p.ILEN = 16 * 2 ^ p.XLEN := by unfold Params.ILEN; rw [Nat.pow_add]

/-- The fields of a packed word are those it was packed from, and it has ILEN bits (30_encoding.md R48). -/
theorem num_fields_pack (p : Params) {op r opd : Nat} (h1 : op < 8) (h2 : r < 2) (h3 : opd < 2 ^ p.XLEN) :
    p.pack op r opd / 2 ^ (p.XLEN + 1) % 8 = op ∧ p.pack op r opd / 2 ^ p.XLEN % 2 = r ∧
      p.pack op r opd % 2 ^ p.XLEN = opd ∧ p.pack op r opd < 2 ^ p.ILEN := by
  have hX : 0 < 2 ^ p.XLEN := Nat.two_pow_pos _
  unfold Params.pack
  rw [two_pow_XLEN_succ, two_pow_ILEN]
  generalize 2 ^ p.XLEN = X at *
  have e : op * (2 * X) + r * X + opd = opd + (op * 2 + r) * X := by ring
  have e2 : op * (2 * X) + r * X + opd = (r * X + opd) + op * (2 * X) := by ring
  refine ⟨?_, ?_, ?_, ?_⟩
  · rw [e2, Nat.add_mul_div_right _ _ (by omega), Nat.div_eq_of_lt, Nat.zero_add, Nat.mod_eq_of_lt h1]
    have : r = 0 ∨ r = 1 := by omega
    rcases this with rfl | rfl <;> omega
  · rw [e, Nat.add_mul_div_right _ _ hX, Nat.div_eq_of_lt h3]; omega
  · rw [e, Nat.add_mul_mod_self_right, Nat.mod_eq_of_lt h3]
  · have : r = 0 ∨ r = 1 := by omega
    have : op * X ≤ 7 * X := Nat.mul_le_mul_right _ (by omega)
    rw [e]
    have : (op * 2 + r) * X ≤ 15 * X := Nat.mul_le_mul_right _ (by omega)
    omega

/-- A word of ILEN bits is packed from its fields (30_encoding.md R48). -/
theorem num_pack_fields (p : Params) {w : Nat} (h : w < 2 ^ p.ILEN) :
    p.pack (w / 2 ^ (p.XLEN + 1) % 8) (w / 2 ^ p.XLEN % 2) (w % 2 ^ p.XLEN) = w := by
  have hX : 0 < 2 ^ p.XLEN := Nat.two_pow_pos _
  rw [two_pow_ILEN] at h
  unfold Params.pack
  rw [two_pow_XLEN_succ]
  generalize 2 ^ p.XLEN = X at *
  have h8 : w / (2 * X) < 8 := Nat.div_lt_of_lt_mul (by omega)
  rw [Nat.mod_eq_of_lt h8]
  have e1 := Nat.div_add_mod w X
  have e2 : w / (2 * X) = w / X / 2 := by rw [Nat.mul_comm, Nat.div_div_eq_div_mul]
  have e3 := Nat.div_add_mod (w / X) 2
  rw [e2]
  have : w / X / 2 * (2 * X) + w / X % 2 * X = (w / X) * X := by
    conv_rhs => rw [← e3]
    ring
  rw [this, Nat.mul_comm]; exact e1

@[simp] theorem numReg_regNumber (r : Reg) : numReg (regNumber r) = r := by cases r <;> rfl

theorem regNumber_lt (r : Reg) : regNumber r < 2 := by cases r <;> decide

theorem regNumber_numReg {n : Nat} (h : n < 2) : regNumber (numReg n) = n := by
  have : n = 0 ∨ n = 1 := by omega
  rcases this with rfl | rfl <;> rfl

/-- `sext` undoes `trunc` on the signed range, for any width. -/
theorem num_sext_trunc (p : Params) (h2 : 2 ≤ p.XLEN) {v : Int} (h : p.inField v = true) :
    p.sext (p.trunc v) = v ∧ p.trunc v < 2 ^ p.XLEN := by
  have e := two_pow_XLEN p h2
  simp only [Params.inField, decide_eq_true_eq] at h
  unfold Params.sext Params.trunc
  have eZ : (2 : Int) ^ p.XLEN = ((2 ^ p.XLEN : Nat) : Int) := by push_cast; rfl
  have eH : (2 : Int) ^ (p.XLEN - 1) = ((2 ^ (p.XLEN - 1) : Nat) : Int) := by push_cast; rfl
  rw [eZ]; rw [eH] at h
  rw [e] at *
  have := Nat.two_pow_pos (p.XLEN - 1)
  generalize 2 ^ (p.XLEN - 1) = H at *
  by_cases hv : 0 ≤ v
  · rw [Int.emod_eq_of_lt hv (by push_cast; omega)]
    rw [if_pos (by omega)]; omega
  · have : v % ((2 * H : Nat) : Int) = v + (2 * H : Nat) := by
      rw [← Int.add_emod_right, Int.emod_eq_of_lt (by omega) (by omega)]
    rw [this, if_neg (by omega)]
    omega

/-- `trunc` undoes `sext`, and `sext` is in the signed range, for any width. -/
theorem num_trunc_sext (p : Params) (h2 : 2 ≤ p.XLEN) {n : Nat} (h : n < 2 ^ p.XLEN) :
    p.trunc (p.sext n) = n ∧ p.inField (p.sext n) = true := by
  have e := two_pow_XLEN p h2
  simp only [Params.inField, decide_eq_true_eq]
  unfold Params.sext Params.trunc
  have eZ : (2 : Int) ^ p.XLEN = ((2 ^ p.XLEN : Nat) : Int) := by push_cast; rfl
  have eH : (2 : Int) ^ (p.XLEN - 1) = ((2 ^ (p.XLEN - 1) : Nat) : Int) := by push_cast; rfl
  rw [eZ, eH]
  rw [e] at h ⊢
  have := Nat.two_pow_pos (p.XLEN - 1)
  generalize 2 ^ (p.XLEN - 1) = H at *
  split
  · rw [Int.emod_eq_of_lt (by omega) (by omega)]; omega
  · rw [Int.sub_emod_right, Int.emod_eq_of_lt (by omega) (by omega)]; omega

/-- What `addTo` can do. -/
theorem num_addTo_cases (p : Params) (r : Reg) (d : Int) (s : NumState) :
    (p.holds (s.x r + d) = true ∧ s.addTo p r d = s.put r (s.x r + d)) ∨
    (p.holds (s.x r + d) = false ∧ s.addTo p r d = s.raise p .registerOverflow (regNumber r)) := by
  unfold NumState.addTo
  cases p.holds (s.x r + d)
  · exact .inr ⟨rfl, rfl⟩
  · exact .inl ⟨rfl, rfl⟩

/-- What `jump` can do. -/
theorem num_jump_cases (p : Params) (l : Nat) (s : NumState) :
    (∃ t, s.lookup l = some t ∧ s.jump p l = { s with pc := t }) ∨
    (s.lookup l = none ∧ s.jump p l = s.raise p .unknownLabel l) := by
  unfold NumState.jump
  cases s.lookup l with
  | some t => exact .inl ⟨t, rfl, rfl⟩
  | none => exact .inr ⟨rfl, rfl⟩

/-! ### The block's values as numbers -/

@[simp] theorem numbers_x (s : State) (r : Reg) : s.numbers.x r = s.x r := by cases r <;> rfl

@[simp] theorem numbers_fetch (s : State) (i : SlotIndex) : s.numbers.fetch i.toNat = (fetchWord s i).toNat := by
  unfold NumState.fetch fetchWord State.numbers
  simp only
  induction s.imem with
  | nil => rfl
  | cons c m ih => simp only [List.map_cons, Memory.read]; split <;> [rfl; exact ih]

@[simp] theorem numbers_lookup (s : State) (l : Label) :
    s.numbers.lookup l.toNat = (labelLookup s l).map BitVec.toNat := by
  unfold NumState.lookup labelLookup State.numbers
  simp only
  induction s.ltab with
  | nil => rfl
  | cons c m ih => simp only [List.map_cons, Memory.read]; split <;> [rfl; exact ih]

/-- A register of the reference width holds the signed range of XLEN bits. -/
theorem holds_reference (v : Int) : Params.reference.holds v = decide (inSignedRange v) := by
  simp only [Params.reference, Params.holds, Params.inField, inSignedRange, Config.XLEN, Config.minReg, Config.maxReg,
    Bool.not_true, Bool.false_or]
  congr 1; simp only [eq_iff_iff]; norm_num; intro _; omega

theorem raise_numbers (c : FaultCode) (i : Nat) (s : State) :
    s.numbers.raise Params.reference c i = (raise c i s).numbers := by
  have : i % 2 ^ Params.reference.ILEN = (BitVec.ofNat 36 i).toNat := rfl
  simp only [NumState.raise, raise, State.numbers, this]

end Sys2Proof.Machine
end

