-- ==== Sys2Proof/Laws/PerInstr.lean ====
section
/-! SUPPORT. Statements made per instruction: one family, one lemma per constructor of Instr. -/

namespace Sys2Proof.Laws.RowOpcode

/-- The opcode field of an instruction's word is that of its row of the opcode map (30_encoding.md R49, R57). -/
def Statement (i : Instr) : Prop := opField (encode i) = opField i.row.bits

theorem set (r : Reg) (v : Int) : Statement (.set r v) :=
  (opField_pack _ _ _).trans (show (0 : BitVec 3) = opField 0x000000000#36 by decide)

theorem inc (r : Reg) : Statement (.inc r) :=
  (opField_pack _ _ _).trans (show (1 : BitVec 3) = opField 0x200000000#36 by decide)

theorem decjz (r : Reg) (l : Label) : Statement (.decjz r l) :=
  (opField_pack _ _ _).trans (show (2 : BitVec 3) = opField 0x400000000#36 by decide)

theorem goto (l : Label) : Statement (.goto l) :=
  (opField_pack _ _ _).trans (show (3 : BitVec 3) = opField 0x600000000#36 by decide)

theorem print : Statement .print :=
  (opField_pack _ _ _).trans (show (4 : BitVec 3) = opField 0x800000000#36 by decide)

theorem halt : Statement .halt :=
  (opField_pack _ _ _).trans (show (5 : BitVec 3) = opField 0xA00000000#36 by decide)

end Sys2Proof.Laws.RowOpcode
end

