-- ==== Sys2Proof/Laws/Step.lean ====
section
/-! SUPPORT. What a step can do, said once (40_step_cycle.md R89). -/

namespace Sys2Proof.Machine

/-- Every step answers a next state. -/
theorem step_answers_next (s : State) : ∃ t, step s = .next t := by
  unfold step
  split
  · exact ⟨_, rfl⟩
  · exact exec_answers_next _ _

/-- The state `stepped` gives is the one `step` answers. -/
theorem step_eq_stepped (s : State) : step s = .next (stepped s) := by
  obtain ⟨t, h⟩ := step_answers_next s
  simp [stepped, h]

/-- The six ways a step ends (40_step_cycle.md R82 to R87): a latched fault, Halted, the implicit halt, the step counter's
overflow, an illegal word, an instruction. -/
theorem step_cases {s t : State} (h : step s = .next t) :
    (s.isFaulted ∧ t = s) ∨
    (s.isHalted ∧ t = s) ∨
    (s.running ∧ s.progLen ≤ s.pc ∧ t = s.setHalted) ∨
    (s.running ∧ s.pc < s.progLen ∧ s.steps = Config.maxSteps ∧ t = raise .stepCounterOverflow 0 s) ∨
    (s.fetches ∧ (∃ e, decode (fetchWord s s.pc) = .error e) ∧
      t = raise .illegalInstruction (fetchWord s s.pc).toNat s.countStep) ∨
    (s.fetches ∧ ∃ i, decode (fetchWord s s.pc) = .ok i ∧ exec i s.countStep = .next t) := by
  unfold step issue at h
  by_cases hf : s.fault = .none
  · by_cases hh : s.halted = true
    · simp only [hf, hh, ne_eq, not_true_eq_false, if_false, if_true, Host.Outcome.next.injEq] at h
      exact .inr (.inl ⟨⟨hf, hh⟩, h.symm⟩)
    · have hh : s.halted = false := by simpa using hh
      have hrun : s.running := ⟨hf, hh⟩
      by_cases hb : s.progLen ≤ s.pc
      · simp only [hf, hh, hb, ne_eq, not_true_eq_false, Bool.false_eq_true, if_false, if_true, Host.Outcome.next.injEq] at h
        exact .inr (.inr (.inl ⟨hrun, hb, h.symm⟩))
      · have hlt : s.pc < s.progLen := by simpa using hb
        by_cases hm : s.steps = Config.maxSteps
        · simp only [hf, hh, hb, hm, ne_eq, not_true_eq_false, Bool.false_eq_true, if_false, if_true,
            Host.Outcome.next.injEq] at h
          exact .inr (.inr (.inr (.inl ⟨hrun, hlt, hm, h.symm⟩)))
        · have hfetch : s.fetches := ⟨hrun, hlt, hm⟩
          simp only [hf, hh, hb, hm, ne_eq, not_true_eq_false, Bool.false_eq_true, if_false, countAndDecode] at h
          cases hd : decode (fetchWord s s.pc) with
          | error e =>
            simp only [hd, Host.Outcome.next.injEq] at h
            exact .inr (.inr (.inr (.inr (.inl ⟨hfetch, ⟨e, rfl⟩, h.symm⟩))))
          | ok i =>
            simp only [hd] at h
            exact .inr (.inr (.inr (.inr (.inr ⟨hfetch, i, rfl, h⟩))))
  · simp only [hf, ne_eq, not_false_eq_true, if_true, Host.Outcome.next.injEq] at h
    exact .inl ⟨hf, h.symm⟩

/-- `n + 1` steps are one step and then `n`. -/
theorem run_succ (n : Nat) (s : State) : Host.Core.run Sys2Proof.core (n + 1) s = Host.Core.run Sys2Proof.core n (stepped s) := by
  have h : Sys2Proof.core.step s = .next (stepped s) := step_eq_stepped s
  simp only [Host.Core.run, h]

/-- A run of `n` steps answers a next state. -/
theorem run_answers_next (n : Nat) (s : State) : ∃ t : State, Host.Core.run Sys2Proof.core n s = .next t := by
  induction n generalizing s with
  | zero => exact ⟨s, rfl⟩
  | succ n ih => rw [run_succ]; exact ih _

end Sys2Proof.Machine
end

