-- ==== Sys2Proof/Laws/Ports.lean ====
section
/-! SUPPORT. What one transition at the ports can do. -/

namespace Sys2Proof.Machine

/-- The beats of the events added since `s`. -/
theorem beatsBetween_append {s t : State} {l : List Event} (h : t.trace = s.trace ++ l) :
    beatsBetween s t = l.map Event.beat := by
  simp [beatsBetween, h]

/-- The ways an iteration of RUN ends (40_step_cycle.md R92). -/
theorem runIteration_cases (budget : Option StepCount) (s : State) :
    (s.isFaulted ∧ runIteration budget s = .returns s (.faulted s.fault)) ∨
    (s.isHalted ∧ runIteration budget s = .returns s .ok) ∨
    (s.running ∧ budgetSpent budget s = true ∧
      runIteration budget s =
        .returns (raise .stepLimitExceeded (budgetValue budget) s) (.fault .stepLimitExceeded)) ∨
    (s.running ∧ budgetSpent budget s = false ∧ (stepped s).isFaulted ∧
      runIteration budget s = .returns (stepped s) (.fault (stepped s).fault)) ∨
    (s.running ∧ budgetSpent budget s = false ∧ (stepped s).fault = .none ∧
      runIteration budget s = .again (stepped s)) := by
  unfold runIteration
  split_ifs with h1 h2 h3 h4
  · exact .inl ⟨h1, rfl⟩
  · exact .inr (.inl ⟨⟨not_not.1 h1, h2⟩, rfl⟩)
  · exact .inr (.inr (.inl ⟨⟨not_not.1 h1, by simpa using h2⟩, h3, rfl⟩))
  · exact .inr (.inr (.inr (.inl ⟨⟨not_not.1 h1, by simpa using h2⟩, by simpa using h3, h4, rfl⟩)))
  · exact .inr (.inr (.inr (.inr ⟨⟨not_not.1 h1, by simpa using h2⟩, by simpa using h3, not_not.1 h4, rfl⟩)))

/-- A transition of a RUN in progress either completes it or leaves it in progress after one step. -/
theorem runOn_cases (budget : Option StepCount) (s : State) :
    (∃ t st, runIteration budget s = .returns t st ∧ Block.runOn budget s = (⟨t, none⟩, doneOutputs s t st)) ∨
    (runIteration budget s = .again (stepped s) ∧
      Block.runOn budget s = (⟨stepped s, some budget⟩, progressOutputs s (stepped s))) := by
  unfold Block.runOn
  rcases runIteration_cases budget s with ⟨_, h⟩ | ⟨_, h⟩ | ⟨_, _, h⟩ | ⟨_, _, _, h⟩ | ⟨_, _, _, h⟩ <;> rw [h]
  · exact .inl ⟨_, _, rfl, rfl⟩
  · exact .inl ⟨_, _, rfl, rfl⟩
  · exact .inl ⟨_, _, rfl, rfl⟩
  · exact .inl ⟨_, _, rfl, rfl⟩
  · exact .inr ⟨rfl, rfl⟩

/-- Power-on at any time (70_reset_and_hazards.md R147). -/
theorem tick_powerOn {p : PortInputs} (h : p.rst = 1) (b : Block) :
    b.tick p = some (⟨State.reset, none⟩, idleOutputs State.reset) := by
  simp [Block.tick, h, powerOn]

/-- A RUN in progress goes on where the host does nothing. -/
theorem tick_running {q : PortInputs} (h : q.rst = 0) (hv : q.cmd_valid = 0) (s : State) (budget : Option StepCount) :
    (Block.mk s (some budget)).tick q = some (Block.runOn budget s) := by
  simp [Block.tick, h, hv]

/-- The host has no move that presents a command while a RUN is in progress (70_reset_and_hazards.md R165). -/
theorem tick_overlap {p : PortInputs} (h : p.rst = 0) (hv : p.cmd_valid = 1) (s : State) (budget : Option StepCount) :
    (Block.mk s (some budget)).tick p = none := by
  simp [Block.tick, h, hv]

end Sys2Proof.Machine
end

