-- ==== Sys2Proof/Tests/Slice0.lean ====
section
/-! SUPPORT. Tests of the model, each expected value taken from spec/ (95_test_vectors.md unless said otherwise), and for
every statement with hypotheses a concrete case that meets them. -/

namespace Sys2Proof.Tests

open Sys2Proof Sys2Proof.Machine

/-! ### Parameters and widths (00_scope.md R7, R8) -/

theorem test_widths : (Word = BitVec Config.XLEN) ∧ (SlotIndex = BitVec Config.PCW) ∧ (StepCount = BitVec Config.STEPW) ∧
    (Label = BitVec Config.LBLW) ∧ (IWord = BitVec Config.ILEN) := ⟨rfl, rfl, rfl, rfl, rfl⟩

theorem test_parameter_constraints : 2 ≤ Config.XLEN ∧ 1 ≤ Config.PCW ∧ 1 ≤ Config.STEPW ∧ 1 ≤ Config.LBLW ∧
    Config.LBLW ≤ Config.XLEN ∧ Config.ILEN = 36 ∧ Config.MAXLEN = 65535 := by decide

theorem test_bounds : Config.maxReg = 2 ^ (Config.XLEN - 1) - 1 ∧ Config.minReg = -2 ^ (Config.XLEN - 1) ∧
    Config.maxSteps.toNat = 2 ^ Config.STEPW - 1 := by decide

/-! ### Well-formedness: the ill-formed terms are refused (30_encoding.md R77 (c), V-T13) -/

theorem test_wf_refuses_too_great : (Instr.set .time 2147483648).wf = false := by decide
theorem test_wf_refuses_too_small : (Instr.set .power (-2147483649)).wf = false := by decide
theorem test_wf_accepts_greatest : (Instr.set .time 2147483647).wf = true := by decide
theorem test_wf_accepts_least : (Instr.set .power (-2147483648)).wf = true := by decide

/-! ### Decoding: words written bit by bit from 30_encoding.md R52 to R56, R62 -/

theorem test_decode_set : decode 0b000100000000000000000000000000000111#36 = .ok (.set .power 7) := by decide
theorem test_decode_set_negative : decode 0b000011111111111111111111111111111110#36 = .ok (.set .time (-2)) := by decide
theorem test_decode_inc : decode 0b001100000000000000000000000000000000#36 = .ok (.inc .power) := by decide
theorem test_decode_decjz : decode 0b010100000000000000001111111111111111#36 = .ok (.decjz .power 65535) := by decide
theorem test_decode_goto : decode 0b011000000000000000000000000000000011#36 = .ok (.goto 3) := by decide
theorem test_decode_print : decode 0b100000000000000000000000000000000000#36 = .ok .print := by decide
theorem test_decode_halt : decode 0b101000000000000000000000000000000000#36 = .ok .halt := by decide
theorem test_decode_reserved : decode 0xE00000000#36 = .error .reservedOpcode := by decide
theorem test_decode_inc_operand : decode 0x200000001#36 = .error .operandNotZero := by decide
theorem test_decode_goto_register : decode 0x700000000#36 = .error .registerNotZero := by decide
theorem test_decode_decjz_high : decode 0x400010000#36 = .error .labelHighNotZero := by decide
theorem test_encode_set : encode (.set .power (-1)) = 0x1FFFFFFFF#36 := by decide
theorem test_table_word : decodeTableWord 40 0x50000FFFF = some (.decjz .power 65535) := by decide
theorem test_num_decode : Params.reference.decode 0x1FFFFFFFF = some (.set .power (-1)) := by decide
theorem test_table_word_above : decodeTableWord 40 0x1000000000 = none := by decide

/-! ### One step: the state of 95_test_vectors.md section 2.4 with one word at `pc` -/

/-- TIME, POWER, `pc`, `steps` as given, PROG_LEN 7, the labels of section 2.4, the word `w` at `pc`. -/
def sample (time power : Word) (pc : SlotIndex) (steps : StepCount) (w : IWord) : State :=
  { State.reset with
    time := time, power := power, pc := pc, steps := steps, progLen := 7
    imem := Memory.write Config.unlistedWord [] pc.toNat w
    ltab := [(0, some 0), (1, some 3), (2, some 7)] }

/-- TIME, POWER, `pc`, `steps`, `fault` and `fault_info`. -/
def view (s : State) : Word × Word × SlotIndex × StepCount × FaultCode × IWord :=
  (s.time, s.power, s.pc, s.steps, s.fault, s.faultInfo)

theorem test_set_V_A1 : view (stepped (sample 9 4 2 10 0x1FFFFFFFF)) = (9, -1, 3, 11, .none, 0) := by decide
theorem test_set_V_A5 : view (stepped (sample 0 0 0 0 0x180000000)) = (0, 0x80000000, 1, 1, .none, 0) := by decide
theorem test_inc_V_A8 : view (stepped (sample (-1) 0 0 0 0x200000000)) = (0, 0, 1, 1, .none, 0) := by decide
theorem test_inc_V_A11 :
    view (stepped (sample 0 2147483647 3 8 0x300000000)) = (0, 2147483647, 3, 9, .registerOverflow, 1) := by decide
theorem test_decjz_V_D1 : view (stepped (sample 0 0 0 0 0x500000001)) = (0, 0, 3, 1, .none, 0) := by decide
theorem test_decjz_V_D7 : view (stepped (sample (-2) 0 1 1 0x400000000)) = (-3, 0, 2, 2, .none, 0) := by decide
theorem test_goto_V_G2 : view (stepped (sample 1 1 0 0 0x600000001)) = (1, 1, 3, 1, .none, 0) := by decide
theorem test_goto_V_G4 : view (stepped (sample 1 1 2 3 0x600000009)) = (1, 1, 2, 4, .unknownLabel, 9) := by decide
theorem test_print_V_P2 : (stepped (sample (-3) 0 2 2 0x800000000)).trace = [.obs (-3)] ∧
    (Event.obs (-3)).beat = ⟨1, 1, 0xFFFFFFFD⟩ := by decide
theorem test_halt_V_H1 : view (stepped (sample 5 0 3 7 0xA00000000)) = (5, 0, 3, 8, .none, 0) ∧
    (stepped (sample 5 0 3 7 0xA00000000)).halted = true ∧
    (stepped (sample 5 0 3 7 0xA00000000)).trace = [.halt] := by decide
theorem test_step_V_S1 : stepped State.reset = { State.reset with halted := true } := by decide
theorem test_step_V_S6 :
    view (stepped (sample 0 0 0 (-1) 0x200000000)) = (0, 0, 0, -1, .stepCounterOverflow, 0) := by decide
theorem test_step_V_S7 :
    view (stepped (sample 0 0 0 0 0xC00000000)) = (0, 0, 0, 1, .illegalInstruction, 0xC00000000) := by decide
theorem test_placed_word_runs :
    (stepped (State.reset.withFetchWord 40 0x800000000)).trace = [.obs 0] := by decide

/-! ### Commands -/

theorem test_run_V_R5 : runFor 1 (some 0) State.reset =
    some ({ State.reset with fault := .stepLimitExceeded }, .fault .stepLimitExceeded) := by decide
theorem test_load_keeps_registers_V_L2 :
    view (loadImage ⟨[0x800000000, 0x200000000], []⟩ (sample 5 0 3 8 0)) = (5, 0, 0, 0, .none, 0) ∧
    (loadImage ⟨[0x800000000, 0x200000000], []⟩ (sample 5 0 3 8 0)).progLen = 2 := by decide
theorem test_reset_V_L4 : view (resetRegs (-4) 7 { sample 0 0 1 2 0 with fault := .unknownLabel }) =
    (-4, 7, 0, 0, .none, 0) := by decide

/-! ### The assembler -/

theorem test_asm_comment_V_T1 : assemble "INC TIME ; bump".toList = .ok ⟨[0x200000000], []⟩ := by rfl
theorem test_asm_labels_V_T7 : assemble "Loop:\nGOTO loop".toList = .ok ⟨[0x600000001], [(0, 0)]⟩ := by rfl
theorem test_asm_duplicate_V_T14 : assemble "x:\nFOO\nx:".toList = .error .duplicateLabel := by rfl
theorem test_asm_opcode_V_T11 : assemble "end: HALT".toList = .error .unknownOpcode := by rfl
/-- 93_implementation_defined.md V10: a carriage return ends no line, and is no white space, in any rule. -/
theorem test_asm_undecided : assemble "PRINT\r\nHALT".toList = .error .undecidedText := by rfl
theorem test_asm_capacity_V_T13 : assemble "SET TIME 2147483648".toList = .error .capacity := by rfl

/-! ### Witnesses: a case that meets the hypotheses of each statement, clause by clause at its boundary -/

/-- A Running machine with the word `w` in the last slot of the program and a step counter that can count once more. -/
def lastSlot (w : IWord) : State := sample 0 0 6 0xFFFFFFFFFFFFFFFE w

theorem witness_EncodeDecodeInverse : (Instr.set .power (-2147483648)).wf ∧
    decode 0x180000000#36 = .ok (.set .power (-2147483648)) := by decide

theorem witness_OpcodeMapSelectsDecoding : decode 0x50000FFFF#36 = .ok (.decjz .power 65535) ∧
    0x50000FFFF#36 &&& (Instr.decjz .time 0).row.mask = (Instr.decjz .time 0).row.bits := by decide

theorem witness_IllegalWordsExactly : (lastSlot 0xE00000000).fetches ∧
    decode (fetchWord (lastSlot 0xE00000000) (lastSlot 0xE00000000).pc) = .error .reservedOpcode ∧
    (Command.load ⟨[0xE00000000], []⟩).perform 0 State.reset =
      some (loadImage ⟨[0xE00000000], []⟩ State.reset, .ok) := by decide

theorem witness_SetLoadsConstant : (Instr.set .time 2147483647).wf := by decide

theorem witness_IncAddsOneOrOverflows : (sample 2147483646 0 0 0 0).x .time ≠ 2147483647 ∧
    (sample 2147483646 0 0 0 0).x .time = 2147483646 ∧ (sample 2147483647 0 0 0 0).x .time = 2147483647 := by decide

theorem witness_DecjzDecrementsOrJumps : (sample 0 0 0 0 0).x .time = 0 ∧ labelLookup (sample 0 0 0 0 0) 2 = some 7 ∧
    labelLookup (sample 0 0 0 0 0) 65535 = none ∧
    (sample 0x80000001 0 0 0 0).x .time ≠ 0 ∧ (sample 0x80000001 0 0 0 0).x .time ≠ -2147483648 ∧
    (sample 0x80000000 0 0 0 0).x .time = -2147483648 := by decide

theorem witness_GotoJumpsOrFaults : labelLookup (sample 0 0 0 0 0) 0 = some 0 ∧
    labelLookup (sample 0 0 0 0 0) 65535 = none := by decide

theorem witness_InstructionFrame : exec .print (sample 7 3 4 4 0) =
      .next { sample 7 3 4 4 0 with trace := [.obs 7], pc := 5 } ∧ ¬ writes .print (sample 7 3 4 4 0) .time ∧
    Instr.print ≠ .halt ∧ exec (.inc .time) (sample 1 3 4 4 0) = .next (sample 2 3 5 4 0) ∧
    Instr.inc .time ≠ .print := ⟨rfl, id, by decide, rfl, by decide⟩

theorem witness_UnnamedRegisterIrrelevant : touches .print .power = false ∧
    exec .print (sample 7 3 4 4 0) = .next { sample 7 3 4 4 0 with trace := [.obs 7], pc := 5 } := ⟨by decide, rfl⟩

theorem witness_PcAdvanceTable : (sample 7 3 4 4 0).fault = .none ∧
    exec .print (sample 7 3 4 4 0) = .next { sample 7 3 4 4 0 with trace := [.obs 7], pc := 5 } ∧
    ((sample 0 0 7 0 0).running ∧ (sample 0 0 7 0 0).progLen ≤ (sample 0 0 7 0 0).pc ∧
      step (sample 0 0 7 0 0) = .next { sample 0 0 7 0 0 with halted := true }) ∧
    (stepped (lastSlot 0xE00000000)).fault ≠ .none ∧
    runIteration (some 0) State.reset =
      .returns { State.reset with fault := .stepLimitExceeded } (.fault .stepLimitExceeded) :=
  ⟨rfl, rfl, ⟨by decide, by decide, rfl⟩, by decide, rfl⟩

theorem witness_StepRunsDecodedInstruction : (lastSlot 0x800000000).fetches ∧
    decode (fetchWord (lastSlot 0x800000000) (lastSlot 0x800000000).pc) = .ok .print ∧
    decode (fetchWord (lastSlot 0xC00000000) (lastSlot 0xC00000000).pc) = .error .reservedOpcode := by decide

/-- A Faulted machine. -/
def faulted : State := { sample 4 9 2 7 0x800000000 with fault := .unknownLabel, faultInfo := 9 }

/-- A Halted machine. -/
def halted : State := { sample 4 9 2 7 0xA00000000 with halted := true }

theorem witness_FaultedStepRefused : faulted.isFaulted := by decide
theorem witness_HaltedStepDoesNothing : halted.isHalted := by decide

theorem witness_ImplicitHaltIsSilent : (sample 0 0 7 4 0).running ∧ (sample 0 0 7 4 0).progLen ≤ (sample 0 0 7 4 0).pc ∧
    (lastSlot 0xA00000000).fetches ∧ (stepped (lastSlot 0xA00000000)).halted = true := by decide

theorem witness_StepCounterOverflowRaised : (sample 0 0 6 (-1) 0).running ∧
    (sample 0 0 6 (-1) 0).pc < (sample 0 0 6 (-1) 0).progLen ∧ (sample 0 0 6 (-1) 0).steps.toNat = 2 ^ 64 - 1 := by decide

theorem witness_StepsCountsFetches : (lastSlot 0x800000000).fetches ∧
    step (lastSlot 0x800000000) = .next (stepped (lastSlot 0x800000000)) ∧ ¬ halted.fetches ∧ step halted = .next halted :=
  ⟨by decide, rfl, by decide, rfl⟩

theorem witness_StatusOfStep : Command.step.perform 0 faulted = some (faulted, .faulted .unknownLabel) ∧ faulted.isFaulted ∧
    Command.step.perform 0 (lastSlot 0xC00000000) =
      some (stepped (lastSlot 0xC00000000), .fault .illegalInstruction) ∧
    ¬ (lastSlot 0xC00000000).isFaulted ∧ (stepped (lastSlot 0xC00000000)).isFaulted ∧
    Command.step.perform 0 halted = some (halted, .ok) ∧ ¬ halted.isFaulted := by decide

theorem witness_TargetsNotChecked : (sample 0 0 0 0 0x600000002).fetches ∧
    (sample 0 0 0 0 0x600000002).atInstr (.goto 2) ∧ labelLookup (sample 0 0 0 0 0x600000002) 2 = some 7 ∧
    (sample 0 0 0 0 0x600000002).progLen ≤ 7 ∧
    (sample 0 0 0 0 0x500000002).fetches ∧ (sample 0 0 0 0 0x500000002).atInstr (.decjz .power 2) ∧
    (sample 0 0 0 0 0x500000002).x .power = 0 := by decide

theorem witness_ProgramImmutable : step (lastSlot 0x800000000) = .next (stepped (lastSlot 0x800000000)) := rfl

theorem witness_EventsOfStep : step (lastSlot 0xA00000000) = .next (stepped (lastSlot 0xA00000000)) ∧
    (Command.reset 1 2).perform 0 faulted = some (resetRegs 1 2 faulted, .ok) ∧
    (Command.load ⟨[], []⟩).perform 0 halted = some (loadImage ⟨[], []⟩ halted, .ok) := ⟨rfl, rfl, rfl⟩

theorem witness_HaltEventEndsTrace : (lastSlot 0xA00000000).running ∧
    Host.Core.run core 1 (lastSlot 0xA00000000) = .next (stepped (lastSlot 0xA00000000)) ∧
    (stepped (lastSlot 0xA00000000)).trace = [.halt] := ⟨by decide, rfl, by decide⟩

theorem witness_HaltKindsDistinguished : (lastSlot 0xA00000000).running ∧
    step (lastSlot 0xA00000000) = .next (stepped (lastSlot 0xA00000000)) ∧ (stepped (lastSlot 0xA00000000)).isHalted ∧
    (sample 0 0 7 4 0).running ∧ step (sample 0 0 7 4 0) = .next (stepped (sample 0 0 7 4 0)) ∧
    (stepped (sample 0 0 7 4 0)).isHalted := ⟨by decide, rfl, by decide, by decide, rfl, by decide⟩

theorem witness_StateAtFault : (lastSlot 0xC00000000).running ∧
    step (lastSlot 0xC00000000) = .next (stepped (lastSlot 0xC00000000)) ∧ (stepped (lastSlot 0xC00000000)).fault ≠ .none ∧
    (stepped (lastSlot 0xC00000000)).fault ≠ .stepCounterOverflow ∧
    (sample 0 0 6 (-1) 0).running ∧ (stepped (sample 0 0 6 (-1) 0)).fault = .stepCounterOverflow ∧
    (5 : StepCount) ≤ (sample 0 0 0 5 0).steps := ⟨by decide, rfl, by decide, by decide, by decide, by decide, by decide⟩

theorem witness_FaultStaysLatched : faulted.isFaulted := by decide

theorem witness_EndedUntilReload : halted.ended ∧ faulted.ended ∧
    (Command.reset 1 2).perform 0 faulted = some (resetRegs 1 2 faulted, .ok) := by decide

theorem witness_FaultPriority : faulted.isFaulted ∧ halted.isHalted ∧
    ((sample 0 0 7 4 0).running ∧ (4 : StepCount) ≤ (sample 0 0 7 4 0).steps ∧
      (sample 0 0 7 4 0).progLen ≤ (sample 0 0 7 4 0).pc) ∧
    ((sample 0 0 7 (-1) 0).running ∧ (sample 0 0 7 (-1) 0).progLen ≤ (sample 0 0 7 (-1) 0).pc ∧
      (sample 0 0 7 (-1) 0).steps = Config.maxSteps) ∧
    ((sample 0 0 6 (-1) 0xC00000000).running ∧ (sample 0 0 6 (-1) 0xC00000000).pc < (sample 0 0 6 (-1) 0xC00000000).progLen ∧
      (sample 0 0 6 (-1) 0xC00000000).steps = Config.maxSteps) ∧
    (lastSlot 0xC00000000).fetches := by decide

/-- The least widths that 00_scope.md R8 permits. -/
def narrow : Params := ⟨2, 1, 1, 1, true⟩

theorem witness_AgreesWithUnboundedRegisters :
    exec (.inc .time) (sample 0 0 0 0 0) = .next (sample 1 0 1 0 0) ∧ (sample 0 0 0 0 0).fault = .none ∧
    exec (.decjz .time 0) (sample 0x80000001 0 0 0 0) = .next (sample 0x80000000 0 1 0 0) ∧
    (sample 0x80000001 0 0 0 0).x .time ≠ 0 ∧
    Host.Core.run core 1 (lastSlot 0x200000000) = .next (stepped (lastSlot 0x200000000)) ∧
    (stepped (lastSlot 0x200000000)).fault ≠ .registerOverflow ∧
    ((lastSlot 0x200000000).numbers.iterate narrow 1).fault ≠ .registerOverflow :=
  ⟨rfl, rfl, rfl, by decide, rfl, by decide, by decide⟩

/-- Inputs that present command `cmd`. -/
def inputs (rst : BitVec 1) (cmd : BitVec 2) (budgetValid : BitVec 1) : PortInputs :=
  ⟨rst, 1, cmd, budgetValid, 5, 1, 2, ⟨[], []⟩⟩

theorem witness_BlockIsReferenceMachine : step (lastSlot 0x200000000) = .next (stepped (lastSlot 0x200000000)) ∧
    (Command.reset 1 2).completes halted (resetRegs 1 2 halted) .ok ∧
    (Image.mk [0x800000000, 0xE00000000] [(0, 2), (65535, 65535)]).wf ∧
    (Command.load ⟨[], []⟩).completes halted (loadImage ⟨[], []⟩ halted) .ok := ⟨rfl, ⟨0, rfl⟩, by decide, ⟨0, rfl⟩⟩

theorem witness_EncodeDecodeInverseAnyWidths : narrow.ok ∧ (NumInstr.set .power (-2)).wf narrow = true ∧
    (NumInstr.goto 1).wf narrow = true ∧ narrow.decode 0b000110 = some (.set .power (-2)) ∧ 0b000110 < 2 ^ narrow.ILEN := by
  decide

/-- INC POWER alone, with TIME at its greatest and POWER at its least value of the least widths. -/
def narrowState : NumState := { NumState.initial.load ⟨[0b001100], [(0, 1)]⟩ with time := 1, power := -2 }

theorem narrowState_fits : narrowState.Fits narrow where
  time := by decide
  power := by decide
  pc := by decide
  steps := by decide
  faultInfo := by decide
  progLen := by decide
  words := fun i => by
    show Memory.read 0 [(0, 12)] i < 64
    simp only [Memory.read]; split <;> decide
  targets := fun l t h => by
    have h : Memory.read none [(0, some 1)] l = some t := h
    simp only [Memory.read] at h
    split at h
    · cases h; decide
    · cases h

theorem witness_StepFitsAnyWidths : narrow.ok ∧ narrowState.Fits narrow := ⟨by decide, narrowState_fits⟩

theorem witness_CommandsFitAnyWidths : narrow.ok ∧ narrowState.Fits narrow ∧ NumImage.wf narrow ⟨[0b001100], [(0, 1)]⟩ ∧
    narrow.holds 1 ∧ narrow.holds (-2) ∧ narrowState.runIteration narrow none = .again (narrowState.step narrow) ∧
    narrowState.runIteration narrow (some 0) =
      .returns (narrowState.raise narrow .stepLimitExceeded 0) (.fault .stepLimitExceeded) :=
  ⟨by decide, narrowState_fits, by decide, by decide, by decide, rfl, rfl⟩

theorem witness_PowerOnState : (inputs 1 0 0).rst = 1 := by decide

theorem witness_CompletedTransactionOutputs : (inputs 0 0 0).rst = 0 ∧ (inputs 0 0 0).cmd_valid = 1 ∧
    (Block.mk (lastSlot 0x800000000) none).tick (inputs 0 0 0) =
      some (⟨stepped (lastSlot 0x800000000), none⟩,
        doneOutputs (lastSlot 0x800000000) (stepped (lastSlot 0x800000000)) .ok) ∧
    (∀ budget, (inputs 0 0 0).command ≠ .run budget) := ⟨by decide, by decide, rfl, fun _ h => by cases h⟩

/-- The host does nothing. -/
def quiet : PortInputs := { inputs 0 0 0 with cmd_valid := 0 }

/-- A RUN in progress at a Halted machine returns; at one that can step it goes on. -/
theorem witness_CompletedTransactionOutputs_run : quiet.rst = 0 ∧ quiet.cmd_valid = 0 ∧
    runIteration none halted = .returns halted .ok ∧
    runIteration none (lastSlot 0xA00000000) = .again (stepped (lastSlot 0xA00000000)) := by decide

theorem witness_LoadCommitsImage : (Image.mk [0x800000000, 0xE00000000] [(0, 2), (65535, 65535)]).wf ∧
    (0 : SlotIndex).toNat < 2 := by decide

theorem witness_LoadResetCommute :
    (Command.load ⟨[], []⟩).completes halted (loadImage ⟨[], []⟩ halted) .ok ∧
    (Command.reset 1 2).completes (loadImage ⟨[], []⟩ halted) (resetRegs 1 2 (loadImage ⟨[], []⟩ halted)) .ok ∧
    (Command.reset 1 2).completes halted (resetRegs 1 2 halted) .ok ∧
    (Command.load ⟨[], []⟩).completes (resetRegs 1 2 halted) (loadImage ⟨[], []⟩ (resetRegs 1 2 halted)) .ok :=
  ⟨⟨0, rfl⟩, ⟨0, rfl⟩, ⟨0, rfl⟩, ⟨0, rfl⟩⟩

theorem witness_PortCodes : (inputs 0 0 0).cmd = 0 ∧ ((inputs 0 1 0).cmd = 1 ∧ (inputs 0 1 0).budget_valid = 0) ∧
    ((inputs 0 1 1).cmd = 1 ∧ (inputs 0 1 1).budget_valid = 1) ∧ (inputs 0 2 0).cmd = 2 ∧ (inputs 0 3 0).cmd = 3 := by decide

theorem witness_BudgetCheckedBeforeStep : (sample 0 0 0 5 0).running ∧ (5 : StepCount) ≤ (sample 0 0 0 5 0).steps ∧
    (sample 0 0 0 5 0).steps < 6 ∧
    runIteration none (lastSlot 0xC00000000) =
      .returns (stepped (lastSlot 0xC00000000)) (.fault .illegalInstruction) := by decide

theorem witness_RunIsRepeatedStep : (lastSlot 0xC00000000).running ∧
    (Command.run none).perform 1 (lastSlot 0xC00000000) =
      some (stepped (lastSlot 0xC00000000), .fault .illegalInstruction) ∧
    (stepped (lastSlot 0xC00000000)).ended := by decide

theorem witness_StepBudgetFailsAtBudget : (sample 0 0 0 5 0).running ∧ (sample 0 0 0 5 0).steps ≤ 6 ∧
    Host.Core.run core ((6 : StepCount).toNat - (sample 0 0 0 5 0).steps.toNat) (sample 0 0 0 5 0) =
      .next (stepped (sample 0 0 0 5 0)) ∧ (stepped (sample 0 0 0 5 0)).running :=
  ⟨by decide, by decide, rfl, by decide⟩

theorem witness_RunPreemptedOnlyByPowerOn : (inputs 0 1 0).rst = 0 ∧ (inputs 0 1 0).cmd_valid = 1 ∧
    (inputs 0 1 0).command = .run none ∧ quiet.rst = 0 ∧ quiet.cmd_valid = 0 ∧
    runFor 2 none (sample 0 0 0 0 0x600000000) = none ∧ (inputs 1 1 0).rst = 1 := by decide

theorem witness_SelfLoopRunsOn : (sample 0 0 0 0 0x600000000).running ∧
    (sample 0 0 0 0 0x600000000).atInstr (.goto 0) ∧
    labelLookup (sample 0 0 0 0 0x600000000) 0 = some (sample 0 0 0 0 0x600000000).pc ∧
    (sample 0 0 0 0 0x600000000).steps.toNat + (2 ^ 64 - 1) < 2 ^ 64 := by decide

/-- The invariant holds of a small state: the reset state, which every command starts from (60_exceptions.md R146). -/
theorem witness_InvariantKeptByStep : State.Inv { State.reset with halted := true } ∧
    step { State.reset with halted := true } = .next { State.reset with halted := true } :=
  ⟨⟨reset_memoryWf, fun h => absurd rfl h, .inl (by decide), fun _ => .inl (by decide), rfl⟩, rfl⟩

theorem witness_InvariantKeptByCommands : (∀ img, Command.load ⟨[], []⟩ = .load img → img.wf = true) ∧
    State.Inv { State.reset with halted := true } ∧
    (Command.load ⟨[], []⟩).completes { State.reset with halted := true } State.reset .ok :=
  ⟨fun _ h => by cases h; rfl,
    ⟨reset_memoryWf, fun h => absurd rfl h, .inl (by decide), fun _ => .inl (by decide), rfl⟩, ⟨0, rfl⟩⟩

theorem witness_AssembledImagesAreSound : assemble "a:\nGOTO a".toList = .ok ⟨[0x600000000], [(0, 0)]⟩ := by rfl

theorem witness_LinesMapToSlots : assemble "a:\nGOTO a".toList = .ok ⟨[0x600000000], [(0, 0)]⟩ ∧
    normalise "a:\nGOTO a".toList = [] ++ "a:".toList :: ["GOTO a".toList] ∧ isLabelLine "a:".toList = true :=
  ⟨by rfl, by rfl, by rfl⟩

theorem witness_AssembledImagesAnyWidths : narrow.ok ∧ assembleFor narrow "a:\nGOTO a".toList = .ok ⟨[0b011000], [(0, 0)]⟩ :=
  ⟨by decide, by rfl⟩

theorem witness_UndecidedTextRefused : isUndecided '\t' = true ∧ isUndecided '\x80' = true ∧ isUndecided '\u009f' = true ∧
    isUndecided ' ' = false ∧ isUndecided '\n' = false ∧ isUndecided '~' = false := by decide

theorem witness_PlacedWordRuns : State.reset.memoryWf ∧ decodeTableWord 40 0x50000FFFF = some (.decjz .power 65535) :=
  ⟨reset_memoryWf, by decide⟩

end Sys2Proof.Tests
end

section
/-! SUPPORT. The machine of any widths: what a step and an iteration of RUN can do, and that every transition keeps every
value within its width (00_scope.md R8). -/

namespace Sys2Proof.Machine

section
variable {p : Params} {s : NumState}

theorem num_step_of_faulted (h : s.fault ≠ .none) : s.step p = s := if_pos h

theorem num_step_of_halted (hf : s.fault = .none) (hh : s.halted = true) : s.step p = s := by
  simp [NumState.step, hf, hh]

/-- The implicit halt (40_step_cycle.md R84). -/
theorem num_step_of_outside (hf : s.fault = .none) (hh : s.halted = false) (hb : s.progLen ≤ s.pc) :
    s.step p = { s with halted := true } := by
  simp [NumState.step, hf, hh, hb]

/-- The step counter's overflow (60_exceptions.md R128). -/
theorem num_step_of_counter_full (hf : s.fault = .none) (hh : s.halted = false) (hb : s.pc < s.progLen)
    (hm : s.steps = 2 ^ p.STEPW - 1) : s.step p = s.raise p .stepCounterOverflow 0 := by
  simp [NumState.step, hf, hh, hb, hm]

theorem num_step_of_fetches (hf : s.fault = .none) (hh : s.halted = false) (hb : s.pc < s.progLen)
    (hm : s.steps ≠ 2 ^ p.STEPW - 1) : s.step p = s.execute p (s.fetch s.pc) := by
  simp [NumState.step, hf, hh, hb, hm]

end

/-- The ways a step ends, for any widths (40_step_cycle.md R82 to R87). -/
theorem num_step_cases (p : Params) (s : NumState) :
    ((s.fault ≠ .none ∨ s.halted = true) ∧ s.step p = s) ∨
    (s.fault = .none ∧ s.halted = false ∧ s.progLen ≤ s.pc ∧ s.step p = { s with halted := true }) ∨
    (s.fault = .none ∧ s.halted = false ∧ s.pc < s.progLen ∧ s.steps = 2 ^ p.STEPW - 1 ∧
      s.step p = s.raise p .stepCounterOverflow 0) ∨
    (s.fault = .none ∧ s.halted = false ∧ s.pc < s.progLen ∧ s.steps ≠ 2 ^ p.STEPW - 1 ∧
      s.step p = s.execute p (s.fetch s.pc)) := by
  by_cases hf : s.fault = .none
  · cases hh : s.halted with
    | true => exact .inl ⟨.inr rfl, num_step_of_halted hf hh⟩
    | false =>
      rcases Nat.lt_or_ge s.pc s.progLen with hb | hb
      · by_cases hm : s.steps = 2 ^ p.STEPW - 1
        · exact .inr (.inr (.inl ⟨hf, rfl, hb, hm, num_step_of_counter_full hf hh hb hm⟩))
        · exact .inr (.inr (.inr ⟨hf, rfl, hb, hm, num_step_of_fetches hf hh hb hm⟩))
      · exact .inr (.inl ⟨hf, rfl, hb, num_step_of_outside hf hh hb⟩)
  · exact .inl ⟨.inl hf, num_step_of_faulted hf⟩

/-- Where an iteration of RUN leads, whether it returns or goes on (40_step_cycle.md R92). -/
theorem num_runIteration_state {p : Params} {budget : Option Nat} {s t : NumState}
    (h : s.runIteration p budget = .again t ∨ ∃ st, s.runIteration p budget = .returns t st) :
    t = s ∨ t = s.raise p .stepLimitExceeded (budget.getD 0) ∨ t = s.step p := by
  unfold NumState.runIteration at h
  split_ifs at h <;> rcases h with h | ⟨st, h⟩ <;> cases h
  · exact .inl rfl
  · exact .inl rfl
  · exact .inr (.inl rfl)
  · exact .inr (.inr rfl)
  · exact .inr (.inr rfl)

/-- The decoder gives instructions whose operands the encoding admits, for any widths (30_encoding.md R58, R61). -/
theorem num_decode_wf {p : Params} (h2 : 2 ≤ p.XLEN) {w : Nat} {i : NumInstr} (h : p.decode w = some i) : i.wf p := by
  have hopd : w % 2 ^ p.XLEN < 2 ^ p.XLEN := Nat.mod_lt _ (Nat.two_pow_pos _)
  unfold Params.decode Params.decodeFields at h
  split at h
  · cases h
    exact (num_trunc_sext p h2 hopd).2
  · split_ifs at h
    cases h
    rfl
  · split_ifs at h with hl
    cases h
    exact decide_eq_true hl
  · split_ifs at h with hl
    cases h
    exact decide_eq_true hl.2
  · split_ifs at h
    cases h
    rfl
  · split_ifs at h
    cases h
    rfl
  · cases h

/-- A register holds every value of the operand field (10_state.md R15, 00_scope.md R8). -/
theorem holds_of_inField {p : Params} {v : Int} (h : p.inField v = true) : p.holds v = true := by
  simp [Params.holds, h]

theorem holds_zero (p : Params) : p.holds 0 = true :=
  holds_of_inField (by simp [Params.inField])

/-! ### The memories of a loaded image -/

/-- A read answers `d` or a listed entry. -/
theorem read_eq_or_mem {α : Type} (d : α) (m : Memory α) (k : Nat) :
    Memory.read d m k = d ∨ (k, Memory.read d m k) ∈ m := by
  induction m with
  | nil => exact .inl rfl
  | cons c m ih =>
    rw [read_cons]
    split
    · rename_i hk
      exact .inr (by simp [hk])
    · exact ih.imp_right (List.mem_cons_of_mem _)

/-- The label table lists entries of the image only. -/
theorem mem_of_mem_numLabelTable {entries : List (Nat × Nat)} {c : Nat × Option Nat} (h : c ∈ numLabelTable entries) :
    ∃ e ∈ entries, c = (e.1, some e.2) := by
  induction entries with
  | nil => cases h
  | cons e entries ih =>
    rcases write_index none h with ⟨rfl, -⟩ | h
    · exact ⟨e, by simp, rfl⟩
    · obtain ⟨e', he', rfl⟩ := ih h
      exact ⟨e', by simp [he'], rfl⟩

/-- A target read from an image's label table is the target of an entry of the image. -/
theorem mem_of_numLabelTable_read {entries : List (Nat × Nat)} {l t : Nat}
    (h : Memory.read none (numLabelTable entries) l = some t) : (l, t) ∈ entries := by
  rcases read_eq_or_mem none (numLabelTable entries) l with hn | hm
  · simp [hn] at h
  · rw [h] at hm
    obtain ⟨e, he, heq⟩ := mem_of_mem_numLabelTable hm
    simp only [Prod.mk.injEq, Option.some.injEq] at heq
    obtain ⟨rfl, rfl⟩ := heq
    exact he

/-- Every slot of a listed program reads below a bound that its words and 0 are below. -/
theorem read_ofListFrom_lt {ws : List Nat} {b : Nat} (hb : 0 < b) (h : ∀ w ∈ ws, w < b) (i : Nat) :
    Memory.read 0 (Memory.ofListFrom 0 0 ws) i < b := by
  have hr : Memory.read 0 (Memory.ofListFrom 0 0 ws) i = ws.getD i 0 := by simpa using read_ofListFrom 0 0 i ws
  rw [hr]
  rcases Nat.lt_or_ge i ws.length with hi | hi
  · rw [List.getD_eq_getElem _ _ hi]
    exact h _ (List.getElem_mem hi)
  · rwa [List.getD_eq_default _ _ hi]

/-! ### Every transition keeps every value within its width -/

section
variable {p : Params} {s : NumState}

/-- Below PROG_LEN, `pc + 1` does not pass PCW bits (10_state.md R20, 00_scope.md R8). -/
theorem NumState.Fits.pc_succ (h : s.Fits p) (hb : s.pc < s.progLen) : s.pc + 1 < 2 ^ p.PCW := by
  have := h.progLen
  unfold Params.MAXLEN at this
  omega

theorem fits_raise (h : s.Fits p) (c : FaultCode) (info : Nat) : (s.raise p c info).Fits p :=
  { h with faultInfo := Nat.mod_lt _ (Nat.two_pow_pos _) }

theorem fits_put (h : s.Fits p) (hpc : s.pc + 1 < 2 ^ p.PCW) (r : Reg) {v : Int} (hv : p.holds v = true) :
    (s.put r v).Fits p := by
  cases r with
  | time => exact { h with time := hv, pc := hpc }
  | power => exact { h with power := hv, pc := hpc }

theorem fits_addTo (h : s.Fits p) (hpc : s.pc + 1 < 2 ^ p.PCW) (r : Reg) (d : Int) : (s.addTo p r d).Fits p := by
  rcases num_addTo_cases p r d s with ⟨hv, e⟩ | ⟨-, e⟩ <;> rw [e]
  · exact fits_put h hpc r hv
  · exact fits_raise h _ _

theorem fits_jump (h : s.Fits p) (l : Nat) : (s.jump p l).Fits p := by
  rcases num_jump_cases p l s with ⟨t, ht, e⟩ | ⟨-, e⟩ <;> rw [e]
  · exact { h with pc := h.targets l t ht }
  · exact fits_raise h _ _

theorem fits_apply (h : s.Fits p) (hpc : s.pc + 1 < 2 ^ p.PCW) {i : NumInstr} (hi : i.wf p = true) :
    (s.apply p i).Fits p := by
  cases i with
  | set r v => exact fits_put h hpc r (holds_of_inField hi)
  | inc r => exact fits_addTo h hpc r 1
  | decjz r l =>
    simp only [NumState.apply]
    split
    · exact fits_jump h l
    · exact fits_addTo h hpc r (-1)
  | goto l => exact fits_jump h l
  | print => exact { h with pc := hpc }
  | halt => exact { h with }

theorem fits_execute (h2 : 2 ≤ p.XLEN) (h : s.Fits p) (hpc : s.pc + 1 < 2 ^ p.PCW) (hs : s.steps + 1 < 2 ^ p.STEPW)
    (w : Nat) : (s.execute p w).Fits p := by
  have hcount : ({ s with steps := s.steps + 1 } : NumState).Fits p := { h with steps := hs }
  unfold NumState.execute
  split
  · exact fits_raise hcount _ _
  · rename_i i hd
    exact fits_apply hcount hpc (num_decode_wf h2 hd)

theorem fits_step (h2 : 2 ≤ p.XLEN) (h : s.Fits p) : (s.step p).Fits p := by
  rcases num_step_cases p s with ⟨-, e⟩ | ⟨-, -, -, e⟩ | ⟨-, -, -, -, e⟩ | ⟨-, -, hb, hm, e⟩ <;> rw [e]
  · exact h
  · exact { h with }
  · exact fits_raise h _ _
  · have := h.steps
    exact fits_execute h2 h (h.pc_succ hb) (by omega) _

theorem fits_runIteration (h2 : 2 ≤ p.XLEN) (h : s.Fits p) {budget : Option Nat} {t : NumState}
    (ht : s.runIteration p budget = .again t ∨ ∃ st, s.runIteration p budget = .returns t st) : t.Fits p := by
  rcases num_runIteration_state ht with rfl | rfl | rfl
  · exact h
  · exact fits_raise h _ _
  · exact fits_step h2 h

theorem fits_initial (p : Params) : NumState.initial.Fits p where
  time := holds_zero p
  power := holds_zero p
  pc := Nat.two_pow_pos _
  steps := Nat.two_pow_pos _
  faultInfo := Nat.two_pow_pos _
  progLen := Nat.zero_le _
  words := fun _ => Nat.two_pow_pos _
  targets := fun _ _ h => by cases h

theorem fits_reset (h : s.Fits p) {t q : Int} (ht : p.holds t = true) (hq : p.holds q = true) : (s.reset t q).Fits p :=
  { h with
    time := ht
    power := hq
    pc := Nat.two_pow_pos _
    steps := Nat.two_pow_pos _
    faultInfo := Nat.two_pow_pos _ }

theorem fits_load (h : s.Fits p) {img : NumImage} (hi : img.wf p) : (s.load img).Fits p := by
  obtain ⟨hlen, hwords, -, hlabels⟩ := hi
  exact
    { h with
      pc := Nat.two_pow_pos _
      steps := Nat.two_pow_pos _
      faultInfo := Nat.two_pow_pos _
      progLen := hlen
      words := read_ofListFrom_lt (Nat.two_pow_pos _) hwords
      targets := fun _ _ hl => (hlabels _ (mem_of_numLabelTable_read hl)).2 }

end

/-- Settles O49: below PROG_LEN and below the counter's greatest value, `pc + 1` and `steps + 1` fit; every other value
written is a register's own, a decoded immediate, a target of the table or a number cut by `raise`. -/
theorem stepFitsAnyWidths : Obligations.StepFitsAnyWidths := fun _ _ hp h => fits_step hp.1 h

/-- Settles O50: LOAD and RESET write the image's and the seeds' values and zeros; an iteration of RUN raises, steps or
does nothing. -/
theorem commandsFitAnyWidths : Obligations.CommandsFitAnyWidths := fun p hp =>
  ⟨fits_initial p, fun _ _ hi h => fits_load h hi, fun _ _ _ ht hq h => fits_reset h ht hq,
    fun _ _ _ h ht => fits_runIteration hp.1 h ht⟩

end Sys2Proof.Machine
end

section
/-! SUPPORT. At the reference widths the machine of any widths is the block: its decoder and encoder, its instructions, a
step, an iteration of RUN, LOAD (00_scope.md R7). -/

namespace Sys2Proof.Machine

@[simp] theorem reference_XLEN : Params.reference.XLEN = 32 := rfl
@[simp] theorem reference_LBLW : Params.reference.LBLW = 16 := rfl

/-! ### The instruction word -/

theorem numReg_toNat (b : BitVec 1) : numReg b.toNat = Reg.ofBit b := by revert b; decide

theorem reference_sext (opd : Word) : Params.reference.sext opd.toNat = sext opd := by
  simp only [Params.sext, reference_XLEN, sext, BitVec.toInt_eq_toNat_cond]
  split_ifs <;> omega

theorem reference_trunc (v : Int) : Params.reference.trunc v = (trunc v).toNat := by
  simp [Params.trunc, trunc, BitVec.toNat_ofInt]

theorem reference_pack (op : BitVec 3) (r : BitVec 1) (opd : Word) :
    Params.reference.pack op.toNat r.toNat opd.toNat = (pack op r opd).toNat := by
  rw [toNat_pack]
  rfl

theorem bitVec_eq_zero_iff {n : Nat} (b : BitVec n) : b = 0 ↔ b.toNat = 0 := by
  rw [← BitVec.toNat_inj]
  rfl

/-- The operand is a label exactly where it is below 2^LBLW (30_encoding.md R58). -/
theorem labelHigh_eq_zero_iff (opd : Word) : labelHigh opd = 0 ↔ opd.toNat < 2 ^ 16 := by
  have := opd.isLt
  rw [bitVec_eq_zero_iff, toNat_labelHigh]
  omega

theorem toNat_labelLow_of_lt {opd : Word} (h : opd.toNat < 2 ^ 16) : (labelLow opd).toNat = opd.toNat := by
  rw [toNat_labelLow, Nat.mod_eq_of_lt h]

section
variable (r : BitVec 1) (opd : Word)

theorem decodeInc_numbers : (decodeInc r opd).toOption.map NumInstr.ofInstr =
    if opd.toNat = 0 then some (.inc (numReg r.toNat)) else none := by
  simp only [decodeInc, ne_eq, bitVec_eq_zero_iff, numReg_toNat]
  split_ifs <;> rfl

theorem decodeDecjz_numbers : (decodeDecjz r opd).toOption.map NumInstr.ofInstr =
    if opd.toNat < 2 ^ 16 then some (.decjz (numReg r.toNat) opd.toNat) else none := by
  simp only [decodeDecjz, ne_eq, labelHigh_eq_zero_iff, numReg_toNat]
  split_ifs with h
  · simp [Except.toOption, NumInstr.ofInstr, toNat_labelLow_of_lt h]
  · rfl

theorem decodeGoto_numbers : (decodeGoto r opd).toOption.map NumInstr.ofInstr =
    if r.toNat = 0 ∧ opd.toNat < 2 ^ 16 then some (.goto opd.toNat) else none := by
  simp only [decodeGoto, ne_eq, labelHigh_eq_zero_iff, bitVec_eq_zero_iff r]
  by_cases hr : r.toNat = 0
  · by_cases h : opd.toNat < 2 ^ 16
    · simp only [hr, h, not_true_eq_false, and_self, if_true, if_false, Except.toOption, Option.map_some,
        NumInstr.ofInstr, toNat_labelLow_of_lt h]
    · simp only [hr, h, not_true_eq_false, not_false_eq_true, and_false, if_true, if_false, Except.toOption,
        Option.map_none]
  · simp only [hr, not_false_eq_true, false_and, if_true, if_false, Except.toOption, Option.map_none]

theorem decodePlain_numbers (i : Instr) : (decodePlain i r opd).toOption.map NumInstr.ofInstr =
    if r.toNat = 0 ∧ opd.toNat = 0 then some (NumInstr.ofInstr i) else none := by
  simp only [decodePlain, ne_eq, bitVec_eq_zero_iff]
  by_cases hr : r.toNat = 0 <;> by_cases h : opd.toNat = 0 <;> simp [hr, h, Except.toOption]

end

/-- The block's decoder is the decoder of the reference widths (30_encoding.md R58). -/
theorem reference_decode (w : IWord) :
    Params.reference.decode w.toNat = (decode w).toOption.map NumInstr.ofInstr := by
  have hfields : Params.reference.decode w.toNat =
      Params.reference.decodeFields (opField w).toNat (regField w).toNat (opdField w).toNat := by
    rw [toNat_opField, toNat_regField, toNat_opdField]
    rfl
  rw [hfields]
  unfold decode Params.decodeFields
  generalize (opField w).toNat = op
  match op with
  | 0 =>
    show some (NumInstr.set (numReg (regField w).toNat) (Params.reference.sext (opdField w).toNat)) =
      some (NumInstr.set (Reg.ofBit (regField w)) (sext (opdField w)))
    rw [reference_sext, numReg_toNat]
  | 1 => exact (decodeInc_numbers _ _).symm
  | 2 => exact (decodeDecjz_numbers _ _).symm
  | 3 => exact (decodeGoto_numbers _ _).symm
  | 4 => exact (decodePlain_numbers _ _ .print).symm
  | 5 => exact (decodePlain_numbers _ _ .halt).symm
  | _ + 6 => rfl

/-- The block's encoder is the encoder of the reference widths (30_encoding.md R61). -/
theorem reference_encode (i : Instr) : Params.reference.encode (.ofInstr i) = (encode i).toNat := by
  cases i with
  | set r v =>
    rw [NumInstr.ofInstr, Params.encode, reference_trunc]
    exact reference_pack 0 r.toBit (trunc v)
  | inc r => exact reference_pack 1 r.toBit 0
  | decjz r l =>
    rw [NumInstr.ofInstr, Params.encode, ← toNat_zextLabel]
    exact reference_pack 2 r.toBit (zextLabel l)
  | goto l =>
    rw [NumInstr.ofInstr, Params.encode, ← toNat_zextLabel]
    exact reference_pack 3 0 (zextLabel l)
  | print => exact reference_pack 4 0 0
  | halt => exact reference_pack 5 0 0

/-! ### A step -/

@[simp] theorem numbers_pc (s : State) : s.numbers.pc = s.pc.toNat := rfl
@[simp] theorem numbers_halted (s : State) : s.numbers.halted = s.halted := rfl
@[simp] theorem numbers_fault (s : State) : s.numbers.fault = s.fault := rfl

/-- The step counter is full at the reference widths exactly at the block's greatest count (40_step_cycle.md R86). -/
theorem toNat_eq_counter_max_iff (n : StepCount) : n.toNat = 2 ^ Params.reference.STEPW - 1 ↔ n = Config.maxSteps := by
  rw [← BitVec.toNat_inj]
  rfl

/-- Below its greatest value the step counter counts as a number does (40_step_cycle.md R86). -/
theorem countStep_numbers {s : State} (h : s.steps ≠ Config.maxSteps) :
    ({ s.numbers with steps := s.numbers.steps + 1 } : NumState) = s.countStep.numbers := by
  have hn : (s.steps + 1).toNat = s.steps.toNat + 1 := by
    have := s.steps.isLt
    have hne : s.steps.toNat ≠ 2 ^ 64 - 1 := mt (toNat_eq_counter_max_iff _).1 h
    exact BitVec.toNat_add_of_lt (show s.steps.toNat + 1 < 2 ^ 64 by omega)
  simp only [State.numbers, State.countStep, hn]

section
variable {s : State} (hpc : s.pc.toNat + 1 < 2 ^ 16)
include hpc

/-- In a step `pc + 1` is the sum of numbers (10_state.md R19, R20). -/
theorem toNat_pc_succ : (s.pc + 1).toNat = s.pc.toNat + 1 :=
  BitVec.toNat_add_of_lt hpc

theorem put_numbers (r : Reg) {v : Int} (hv : inSignedRange v) :
    s.numbers.put r v = (s.setReg r (trunc v)).advance.numbers := by
  have hv' : (trunc v).toInt = v := sext_trunc hv
  cases r <;>
    simp only [NumState.put, State.numbers, State.setReg, State.advance, State.setPc, toNat_pc_succ hpc, hv']

theorem addTo_numbers (r : Reg) (d : Int) : s.numbers.addTo Params.reference r d = (addTo r d s).numbers := by
  rw [NumState.addTo, numbers_x, holds_reference]
  rcases addTo_cases r d s with ⟨h, e⟩ | ⟨h, e⟩
  · rw [e, if_pos (decide_eq_true h), put_numbers hpc r h]
  · rw [e, if_neg (by simpa using h), raise_numbers]

end

theorem jump_numbers (l : Label) (s : State) :
    s.numbers.jump Params.reference l.toNat = (jump l s).numbers := by
  rw [NumState.jump, numbers_lookup]
  rcases jump_cases l s with ⟨t, ht, e⟩ | ⟨ht, e⟩ <;> rw [e, ht]
  · rfl
  · exact raise_numbers _ _ s

/-- An instruction of the block is the instruction of the reference widths (40_step_cycle.md R89). -/
theorem apply_numbers {i : Instr} {s t : State} (hi : i.wf = true) (hpc : s.pc.toNat + 1 < 2 ^ 16)
    (h : exec i s = .next t) : s.numbers.apply Params.reference (.ofInstr i) = t.numbers := by
  cases i with
  | set r v =>
    cases h
    exact put_numbers hpc r (of_decide_eq_true hi)
  | inc r =>
    cases h
    exact addTo_numbers hpc r 1
  | decjz r l =>
    cases h
    simp only [NumInstr.ofInstr, NumState.apply, numbers_x, isZero_iff]
    split
    · exact jump_numbers l s
    · exact addTo_numbers hpc r (-1)
  | goto l =>
    cases h
    exact jump_numbers l s
  | print =>
    cases h
    simp only [NumInstr.ofInstr, NumState.apply, State.numbers, State.advance, State.setPc, State.emit, toNat_pc_succ hpc]
    rfl
  | halt =>
    cases h
    rfl

theorem execute_numbers_of_error {w : IWord} {e : Illegal} {s : State} (hs : s.steps ≠ Config.maxSteps)
    (hd : decode w = .error e) :
    s.numbers.execute Params.reference w.toNat = (raise .illegalInstruction w.toNat s.countStep).numbers := by
  simp only [NumState.execute, reference_decode, hd, countStep_numbers hs, ← raise_numbers, Except.toOption,
    Option.map_none]

theorem execute_numbers_of_ok {w : IWord} {i : Instr} {s t : State} (hs : s.steps ≠ Config.maxSteps)
    (hpc : s.pc.toNat + 1 < 2 ^ 16) (hd : decode w = .ok i) (hx : exec i s.countStep = .next t) :
    s.numbers.execute Params.reference w.toNat = t.numbers := by
  simp only [NumState.execute, reference_decode, hd, countStep_numbers hs, Except.toOption, Option.map_some]
  exact apply_numbers (decode_wf hd) hpc hx

/-- A step of the block is a step of the reference widths (40_step_cycle.md R89). -/
theorem step_numbers {s t : State} (h : step s = .next t) : s.numbers.step Params.reference = t.numbers := by
  rcases step_cases h with ⟨hf, rfl⟩ | ⟨⟨hf, hh⟩, rfl⟩ | ⟨⟨hf, hh⟩, hb, rfl⟩ | ⟨⟨hf, hh⟩, hb, hm, rfl⟩ |
    ⟨⟨⟨hf, hh⟩, hb, hm⟩, ⟨e, hd⟩, rfl⟩ | ⟨⟨⟨hf, hh⟩, hb, hm⟩, i, hd, hx⟩
  · exact num_step_of_faulted hf
  · exact num_step_of_halted hf hh
  · exact num_step_of_outside hf hh hb
  · rw [num_step_of_counter_full hf hh hb ((toNat_eq_counter_max_iff _).2 hm), raise_numbers]
  · rw [num_step_of_fetches hf hh hb (mt (toNat_eq_counter_max_iff _).1 hm), numbers_pc, numbers_fetch,
      execute_numbers_of_error hm hd]
  · have hpc : s.pc.toNat + 1 < 2 ^ 16 := by
      have hlt : s.pc.toNat < s.progLen.toNat := hb
      have := s.progLen.isLt
      omega
    rw [num_step_of_fetches hf hh hb (mt (toNat_eq_counter_max_iff _).1 hm), numbers_pc, numbers_fetch,
      execute_numbers_of_ok hm hpc hd hx]

theorem stepped_numbers (s : State) : s.numbers.step Params.reference = (stepped s).numbers :=
  step_numbers (step_eq_stepped s)

/-! ### The commands -/

theorem budgetSpent_numbers (budget : Option StepCount) (s : State) :
    (budget.map BitVec.toNat).any (fun b => decide (b ≤ s.numbers.steps)) = budgetSpent budget s := by
  cases budget <;> rfl

theorem budgetValue_numbers (budget : Option StepCount) : (budget.map BitVec.toNat).getD 0 = budgetValue budget := by
  cases budget <;> rfl

/-- An iteration of the block's RUN is an iteration of the reference widths (40_step_cycle.md R92). -/
theorem runIteration_numbers (budget : Option StepCount) (s : State) :
    s.numbers.runIteration Params.reference (budget.map BitVec.toNat) = (runIteration budget s).numbers := by
  simp only [NumState.runIteration, runIteration, numbers_fault, numbers_halted, budgetSpent_numbers,
    budgetValue_numbers, stepped_numbers, raise_numbers]
  split_ifs <;> rfl

section
variable {α β : Type} [DecidableEq α] [DecidableEq β] {f : α → β}

/-- The memory of the images of a list's entries is the image of the memory, under an injective function. -/
theorem map_ofListFrom (hf : Function.Injective f) (d : α) (k : Nat) (vs : List α) :
    (Memory.ofListFrom d k vs).map (fun c => (c.1, f c.2)) = Memory.ofListFrom (f d) k (vs.map f) := by
  induction vs generalizing k with
  | nil => rfl
  | cons v vs ih =>
    simp only [Memory.ofListFrom, List.map_cons, hf.eq_iff]
    split <;> simp [ih]

/-- Writing the image of an entry into the image of a memory, under an injective function. -/
theorem map_write (hf : Function.Injective f) (d : α) (m : Memory α) (k : Nat) (v : α) :
    (Memory.write d m k v).map (fun c => (c.1, f c.2)) =
      Memory.write (f d) (m.map fun c => (c.1, f c.2)) k (f v) := by
  induction m with
  | nil =>
    simp only [Memory.write, List.map_nil, hf.eq_iff]
    split <;> rfl
  | cons c m ih =>
    simp only [Memory.write, List.map_cons, hf.eq_iff]
    split_ifs <;> simp [ih]

end

theorem labelTable_numbers (entries : List (Label × SlotIndex)) :
    (labelTable entries).map (fun c => (c.1, c.2.map BitVec.toNat)) =
      numLabelTable (entries.map fun d => (d.1.toNat, d.2.toNat)) := by
  induction entries with
  | nil => rfl
  | cons e entries ih =>
    have hf : Function.Injective (Option.map (BitVec.toNat : SlotIndex → Nat)) := Option.map_injective BitVec.toNat_injective
    rw [labelTable, map_write hf, ih]
    rfl

theorem image_wf_iff (img : Image) :
    img.wf = true ↔ img.words.length ≤ Config.MAXLEN ∧ (img.labels.map Prod.fst).Nodup := by
  simp [Image.wf]

/-- An image the port can carry is one that the port of the reference widths can carry (70_reset_and_hazards.md R149). -/
theorem image_numbers_wf {img : Image} (h : img.wf = true) : img.numbers.wf Params.reference := by
  obtain ⟨hlen, hnodup⟩ := (image_wf_iff img).1 h
  refine ⟨(List.length_map _).trans_le hlen, ?_, ?_, ?_⟩
  · intro w hw
    obtain ⟨v, -, rfl⟩ := List.mem_map.1 hw
    exact v.isLt
  · have := hnodup.map BitVec.toNat_injective
    simpa [Image.numbers, Function.comp_def] using this
  · intro d hd
    obtain ⟨e, -, rfl⟩ := List.mem_map.1 hd
    exact ⟨e.1.isLt, e.2.isLt⟩

/-- LOAD of the block is LOAD of the reference widths (70_reset_and_hazards.md R150). -/
theorem loadImage_numbers {img : Image} (h : img.wf = true) (s : State) :
    s.numbers.load img.numbers = (loadImage img s).numbers := by
  have hlen : (BitVec.ofNat 16 img.words.length).toNat = img.words.length := by
    have hmax : img.words.length ≤ 65535 := ((image_wf_iff img).1 h).1
    rw [BitVec.toNat_ofNat]
    omega
  have hmem := map_ofListFrom BitVec.toNat_injective Config.unlistedWord 0 img.words
  simp only [NumState.load, State.numbers, loadImage, rewind, Image.numbers, hlen, hmem, labelTable_numbers,
    List.length_map]
  rfl

/-- Settles O47: the decoder, the encoder, a step, an iteration of RUN and LOAD commute with reading the block's values as
numbers; RESET and power-on do so by computation. -/
theorem blockIsReferenceMachine : Obligations.BlockIsReferenceMachine := by
  refine ⟨reference_decode, reference_encode, fun _ _ => step_numbers, runIteration_numbers, ?_, ?_, rfl⟩
  · rintro p q s t st ⟨n, h⟩
    cases h
    rfl
  · rintro img s t st hi ⟨n, h⟩
    cases h
    exact ⟨image_numbers_wf hi, loadImage_numbers hi s⟩

end Sys2Proof.Machine
end

section
/-! SUPPORT. The state under instructions, steps and commands: what an instruction can do, said once, with its frame; the
invariant of the block; and that an ended run stays ended until a LOAD or a RESET (10_state.md). -/

namespace Sys2Proof.Machine

/-! ### What an instruction can do -/

/-- `i`, executed at `s`, resolves label `l` and goes to its target (42_control_transfer.md R104, R105). -/
def jumpsBy (i : Instr) (s : State) (l : Label) : Prop := i = .goto l ∨ ∃ r, i = .decjz r l ∧ s.x r = 0

/-- The result of `i`, executed at `s`, does not fit register `r` (41_register_ops.md R98, 42_control_transfer.md R104). -/
def overflows (i : Instr) (s : State) (r : Reg) : Prop :=
  (i = .inc r ∧ s.x r = Config.maxReg) ∨ ∃ l, i = .decjz r l ∧ s.x r = Config.minReg

/-- The six ways an instruction ends (41_register_ops.md, 42_control_transfer.md, 43_system.md). -/
inductive ExecEnds (i : Instr) (s : State) : State → Prop where
  | write (r : Reg) (v : Word) (hw : writes i s r) : ExecEnds i s (s.setReg r v).advance
  | jump (l : Label) (target : SlotIndex) (hj : jumpsBy i s l) (ht : labelLookup s l = some target) :
    ExecEnds i s (s.setPc target)
  | print (hi : i = .print) : ExecEnds i s (s.emit (.obs (s.x .time))).advance
  | halt (hi : i = .halt) : ExecEnds i s (s.emit .halt).setHalted
  | unknownLabel (l : Label) (hj : jumpsBy i s l) (hn : labelLookup s l = none) :
    ExecEnds i s (raise .unknownLabel l.toNat s)
  | overflow (r : Reg) (ho : overflows i s r) : ExecEnds i s (raise .registerOverflow (regNumber r) s)

theorem execEnds_jump {i : Instr} {s : State} {l : Label} (h : jumpsBy i s l) : ExecEnds i s (jump l s) := by
  rcases jump_cases l s with ⟨t, ht, e⟩ | ⟨hn, e⟩ <;> rw [e]
  · exact .jump l t h ht
  · exact .unknownLabel l h hn

theorem execEnds_addTo {i : Instr} {s : State} {r : Reg} {d : Int} (hw : writes i s r)
    (ho : ¬ inSignedRange (s.x r + d) → overflows i s r) : ExecEnds i s (addTo r d s) := by
  rcases addTo_cases r d s with ⟨-, e⟩ | ⟨hn, e⟩ <;> rw [e]
  · exact .write r _ hw
  · exact .overflow r (ho hn)

/-- Adding one overflows at the greatest value only. -/
theorem x_eq_maxReg {s : State} {r : Reg} (h : ¬ inSignedRange (s.x r + 1)) : s.x r = Config.maxReg := by
  obtain ⟨hlo, hhi⟩ := x_inRange s r
  simp only [inSignedRange, Config.minReg, Config.maxReg] at *
  omega

/-- Subtracting one overflows at the least value only. -/
theorem x_eq_minReg {s : State} {r : Reg} (h : ¬ inSignedRange (s.x r + -1)) : s.x r = Config.minReg := by
  obtain ⟨hlo, hhi⟩ := x_inRange s r
  simp only [inSignedRange, Config.minReg, Config.maxReg] at *
  omega

/-- The inversion lemma of `exec`: an instruction ends in one of the six ways. -/
theorem exec_cases {i : Instr} {s t : State} (h : exec i s = .next t) : ExecEnds i s t := by
  cases i with
  | set r v =>
    cases h
    exact .write r _ rfl
  | inc r =>
    cases h
    exact execEnds_addTo rfl fun ho => .inl ⟨rfl, x_eq_maxReg ho⟩
  | decjz r l =>
    cases h
    split
    · rename_i hz
      exact execEnds_jump (.inr ⟨r, rfl, (isZero_iff s r).1 hz⟩)
    · rename_i hz
      exact execEnds_addTo ⟨rfl, mt (isZero_iff s r).2 hz⟩ fun ho => .inr ⟨l, rfl, x_eq_minReg ho⟩
  | goto l =>
    cases h
    exact execEnds_jump (.inl rfl)
  | print =>
    cases h
    exact .print rfl
  | halt =>
    cases h
    exact .halt rfl

/-! ### The frame of an instruction -/

/-- `t` holds the program of `s`: PROG_LEN and the lists of both memories. -/
def keepsProgram (s t : State) : Prop := t.progLen = s.progLen ∧ t.imem = s.imem ∧ t.ltab = s.ltab

theorem keepsProgram.sameProgram {s t : State} (h : keepsProgram s t) : sameProgram s t := by
  obtain ⟨hlen, himem, hltab⟩ := h
  exact ⟨hlen, fun a => by rw [fetchWord, fetchWord, himem], fun l => by rw [labelLookup, labelLookup, hltab]⟩

theorem keepsProgram.memoryWf {s t : State} (h : keepsProgram s t) (hs : s.memoryWf) : t.memoryWf := by
  obtain ⟨-, himem, hltab⟩ := h
  rwa [State.memoryWf, himem, hltab]

section
variable {i : Instr} {s t : State} (h : exec i s = .next t)
include h

/-- No instruction writes the program (10_state.md R24, 20_memory.md R34). -/
theorem exec_keepsProgram : keepsProgram s t := by
  cases exec_cases h <;> simp [keepsProgram]

/-- No instruction counts: the step does (10_state.md R22). -/
theorem exec_steps : t.steps = s.steps := by
  cases exec_cases h <;> simp

/-- A register that the instruction does not write keeps its value (10_state.md R16). -/
theorem exec_reg {r : Reg} (hr : ¬ writes i s r) : t.reg r = s.reg r := by
  cases exec_cases h
  case write r' v hw =>
    have hne : r ≠ r' := fun e => hr (e ▸ hw)
    rw [advance_reg, setReg_reg_other s hne]
  all_goals simp

/-- Only HALT writes the halted flag (10_state.md R21). -/
theorem exec_halted (hi : i ≠ .halt) : t.halted = s.halted := by
  cases exec_cases h
  case halt e => exact absurd e hi
  all_goals simp

/-- Only PRINT and HALT emit an event (43_system.md R117). -/
theorem exec_trace (hi : i ≠ .halt) (hp : i ≠ .print) : t.trace = s.trace := by
  cases exec_cases h
  case print e => exact absurd e hp
  case halt e => exact absurd e hi
  all_goals simp

/-- An instruction leaves the fault latch, or latches one of its two faults and writes nothing else
(60_exceptions.md R129). -/
theorem exec_fault : t.fault = s.fault ∧ t.faultInfo = s.faultInfo ∨
    (t.fault = .registerOverflow ∨ t.fault = .unknownLabel) ∧ (∀ r, t.reg r = s.reg r) ∧ t.pc = s.pc := by
  cases exec_cases h
  case unknownLabel => exact .inr ⟨.inr rfl, raise_reg s _ _, rfl⟩
  case overflow => exact .inr ⟨.inl rfl, raise_reg s _ _, rfl⟩
  all_goals exact .inl (by simp)

/-- From a state with no fault, an instruction that latches one leaves `pc` (10_state.md R19). -/
theorem exec_pc_of_fault (hs : s.fault = .none) (ht : t.fault ≠ .none) : t.pc = s.pc := by
  rcases exec_fault h with ⟨e, -⟩ | ⟨-, -, e⟩
  · exact absurd (e.trans hs) ht
  · exact e

end

/-- Settles O11: each part of the frame is read off the six ways an instruction ends. -/
theorem instructionFrame : Obligations.InstructionFrame := fun _ _ _ h =>
  ⟨fun _ => exec_reg h, exec_steps h, (exec_keepsProgram h).sameProgram, exec_halted h, exec_trace h, exec_fault h⟩

/-! ### A register that the instruction does not name -/

section
variable (s : State) (r : Reg) (v : Word)

theorem setReg_comm {r' : Reg} (h : r' ≠ r) (w : Word) :
    (s.setReg r v).setReg r' w = (s.setReg r' w).setReg r v := by
  cases r <;> cases r'
  case time.time => exact absurd rfl h
  case power.power => exact absurd rfl h
  all_goals rfl

theorem advance_setReg : (s.setReg r v).advance = s.advance.setReg r v := by cases r <;> rfl
theorem setPc_setReg (t : SlotIndex) : (s.setReg r v).setPc t = (s.setPc t).setReg r v := by cases r <;> rfl
theorem emit_setReg (e : Event) : (s.setReg r v).emit e = (s.emit e).setReg r v := by cases r <;> rfl
theorem setHalted_setReg : (s.setReg r v).setHalted = s.setHalted.setReg r v := by cases r <;> rfl
theorem raise_setReg (c : FaultCode) (info : Nat) : raise c info (s.setReg r v) = (raise c info s).setReg r v := by
  cases r <;> rfl

theorem jump_setReg (l : Label) : jump l (s.setReg r v) = (jump l s).setReg r v := by
  rw [jump, jump, setReg_labelLookup]
  cases labelLookup s l with
  | some t => exact setPc_setReg s r v t
  | none => exact raise_setReg s r v _ _

theorem addTo_setReg {r' : Reg} (h : r' ≠ r) (d : Int) : addTo r' d (s.setReg r v) = (addTo r' d s).setReg r v := by
  rw [addTo, addTo, setReg_x_other s h]
  cases narrow? (s.x r' + d) with
  | some w => exact (congrArg State.advance (setReg_comm s r v h w)).trans (advance_setReg _ r v)
  | none => exact raise_setReg s r v _ _

end

/-- Settles O12: every operation an instruction is made of commutes with writing a register that it does not name. -/
theorem unnamedRegisterIrrelevant : Obligations.UnnamedRegisterIrrelevant := by
  intro i r s t v hr h
  cases i with
  | set r' w =>
    cases h
    have hne : r' ≠ r := by simpa [touches] using hr
    simp only [exec, execSet, setReg_comm s r v hne, advance_setReg]
  | inc r' =>
    cases h
    have hne : r' ≠ r := by simpa [touches] using hr
    simp only [exec, execInc, addTo_setReg s r v hne]
  | decjz r' l =>
    cases h
    have hne : r' ≠ r := by simpa [touches] using hr
    simp only [exec, execDecjz, setReg_reg_other s hne, jump_setReg, addTo_setReg s r v hne]
    split <;> rfl
  | goto l =>
    cases h
    simp only [exec, execGoto, jump_setReg]
  | print =>
    cases h
    have hne : r ≠ .time := by simpa [touches] using hr
    simp only [exec, execPrint, setReg_x_other s hne.symm, emit_setReg, advance_setReg]
  | halt =>
    cases h
    simp only [exec, execHalt, emit_setReg, setHalted_setReg]

/-! ### What a step can do -/

/-- A step that does not fetch does nothing, halts implicitly or finds the step counter full; a step that fetches counts,
and then finds an illegal word or runs an instruction (40_step_cycle.md R82 to R87). -/
theorem step_cases_by_fetch {s t : State} (h : step s = .next t) :
    (¬ s.fetches ∧ (t = s ∨ t = s.setHalted ∨ t = raise .stepCounterOverflow 0 s)) ∨
    (s.fetches ∧ (t = raise .illegalInstruction (fetchWord s s.pc).toNat s.countStep ∨
      ∃ i, exec i s.countStep = .next t)) := by
  rcases step_cases h with ⟨hf, rfl⟩ | ⟨⟨-, hh⟩, rfl⟩ | ⟨-, hb, rfl⟩ | ⟨-, -, hm, rfl⟩ | ⟨hf, -, rfl⟩ | ⟨hf, i, -, hx⟩
  · exact .inl ⟨fun hfetch => hf hfetch.1.1, .inl rfl⟩
  · exact .inl ⟨fun hfetch => by simp [hfetch.1.2] at hh, .inl rfl⟩
  · exact .inl ⟨fun hfetch => BitVec.not_le.2 hfetch.2.1 hb, .inr (.inl rfl)⟩
  · exact .inl ⟨fun hfetch => hfetch.2.2 hm, .inr (.inr rfl)⟩
  · exact .inr ⟨hf, .inl rfl⟩
  · exact .inr ⟨hf, .inr ⟨i, hx⟩⟩

section
variable {s t : State} (h : step s = .next t)
include h

theorem step_keepsProgram : keepsProgram s t := by
  rcases step_cases_by_fetch h with ⟨-, rfl | rfl | rfl⟩ | ⟨-, rfl | ⟨i, hx⟩⟩
  case inr.inr => exact (exec_keepsProgram hx :)
  all_goals exact ⟨rfl, rfl, rfl⟩

theorem step_steps_of_fetches (hf : s.fetches) : t.steps = s.steps + 1 := by
  rcases step_cases_by_fetch h with ⟨hn, -⟩ | ⟨-, rfl | ⟨i, hx⟩⟩
  · exact absurd hf hn
  · rfl
  · exact exec_steps hx

theorem step_steps_of_not_fetches (hf : ¬ s.fetches) : t.steps = s.steps := by
  rcases step_cases_by_fetch h with ⟨-, rfl | rfl | rfl⟩ | ⟨hn, -⟩
  case inr => exact absurd hn hf
  all_goals rfl

theorem step_pc_of_not_fetches (hf : ¬ s.fetches) : t.pc = s.pc := by
  rcases step_cases_by_fetch h with ⟨-, rfl | rfl | rfl⟩ | ⟨hn, -⟩
  case inr => exact absurd hn hf
  all_goals rfl

/-- Every fault of a step leaves `pc` (10_state.md R19, 60_exceptions.md R129). -/
theorem step_pc_of_fault (ht : t.fault ≠ .none) : t.pc = s.pc := by
  rcases step_cases_by_fetch h with ⟨hn, -⟩ | ⟨hf, rfl | ⟨i, hx⟩⟩
  · exact step_pc_of_not_fetches h hn
  · rfl
  · exact (exec_pc_of_fault hx hf.1.1 ht :)

end

/-- Below its greatest value the step counter goes up by one as a number (40_step_cycle.md R86). -/
theorem toNat_add_one_of_ne_maxSteps {n : StepCount} (h : n ≠ Config.maxSteps) : (n + 1).toNat = n.toNat + 1 := by
  have hne : n.toNat ≠ 2 ^ 64 - 1 := fun e => h (BitVec.eq_of_toNat_eq e)
  have := n.isLt
  exact BitVec.toNat_add_of_lt (show n.toNat + 1 < 2 ^ 64 by omega)

/-- Settles O19: a step counts where it fetches, below the counter's greatest value, and only there. -/
theorem stepsCountsFetches : Obligations.StepsCountsFetches := fun s t h =>
  ⟨fun hf => by rw [step_steps_of_fetches h hf, toNat_add_one_of_ne_maxSteps hf.2.2], step_steps_of_not_fetches h⟩

/-- Settles O22: every step keeps PROG_LEN and the lists of both memories. -/
theorem programImmutable : Obligations.ProgramImmutable := fun _ _ h => (step_keepsProgram h).sameProgram

/-! ### The new `pc` -/

theorem addTo_pc {r : Reg} {d : Int} {s : State} (h : (addTo r d s).fault = .none) : (addTo r d s).pc = s.pc + 1 := by
  rcases addTo_cases r d s with ⟨-, e⟩ | ⟨-, e⟩ <;> rw [e] at h ⊢
  · simp
  · cases h

theorem jump_pc {l : Label} {s : State} (h : (jump l s).fault = .none) : labelLookup s l = some (jump l s).pc := by
  rcases jump_cases l s with ⟨t, ht, e⟩ | ⟨-, e⟩ <;> rw [e] at h ⊢
  · exact ht
  · cases h

/-- Every fault of RUN leaves `pc`, that of the budget check included (60_exceptions.md R129). -/
theorem runIteration_pc_of_fault {budget : Option StepCount} {s t : State} {st : Status}
    (h : runIteration budget s = .returns t st) (ht : t.fault ≠ .none) : t.pc = s.pc := by
  rcases runIteration_cases budget s with ⟨-, e⟩ | ⟨-, e⟩ | ⟨-, -, e⟩ | ⟨-, -, -, e⟩ | ⟨-, -, -, e⟩ <;> cases e.symm.trans h
  · rfl
  · rfl
  · rfl
  · exact step_pc_of_fault (step_eq_stepped s) ht

/-- Settles O13: an instruction's own row is what `advance`, `addTo` and `jump` do where no fault is latched. -/
theorem pcAdvanceTable : Obligations.PcAdvanceTable := by
  refine ⟨?_, fun s t _ hb h => ?_, fun _ _ => step_pc_of_fault, fun _ _ _ _ => runIteration_pc_of_fault⟩
  · intro i s t _ h ht
    cases i with
    | set r v =>
      cases h
      simp
    | inc r =>
      cases h
      exact addTo_pc ht
    | decjz r l =>
      cases h
      simp only [isZero_iff] at ht ⊢
      constructor
      · intro hz
        rw [if_pos hz] at ht ⊢
        exact jump_pc ht
      · intro hz
        rw [if_neg hz] at ht ⊢
        exact addTo_pc ht
    | goto l =>
      cases h
      exact jump_pc ht
    | print =>
      cases h
      rfl
    | halt =>
      cases h
      rfl
  · exact step_pc_of_not_fetches h fun hf => BitVec.not_le.2 hf.2.1 hb

/-! ### The invariant of the block -/

section
variable {s : State}

theorem faultInfo_eq_zero (h : s.faultExplained) (hf : s.fault = .none) : s.faultInfo = 0 := by
  simpa only [State.faultExplained, hf] using h

theorem faultExplained_of_no_fault (hf : s.fault = .none) (hinfo : s.faultInfo = 0) : s.faultExplained := by
  simpa only [State.faultExplained, hf] using hinfo

/-- In Running the invariant speaks of the memories, of `pc` and of `fault_info` only. -/
theorem inv_of_running (hmem : s.memoryWf) (hrun : s.running) (hpc : s.pcReachable) (hinfo : s.faultInfo = 0) :
    s.Inv where
  memories := hmem
  exclusive := fun _ => hrun.2
  pcPlace := hpc
  halt := fun hh => by simp [hrun.2] at hh
  faulted := faultExplained_of_no_fault hrun.1 hinfo

theorem inv_countStep (hs : s.Inv) (hrun : s.running) : s.countStep.Inv :=
  inv_of_running hs.memories hrun hs.pcPlace (faultInfo_eq_zero hs.faulted hrun.1 :)

/-- A fault raised in Running keeps the invariant where it is explained. -/
theorem inv_raise (hs : s.Inv) (hrun : s.running) {c : FaultCode} {info : Nat}
    (h : (raise c info s).faultExplained) : (raise c info s).Inv where
  memories := hs.memories
  exclusive := fun _ => hrun.2
  pcPlace := hs.pcPlace
  halt := hs.halt
  faulted := h

/-- A halt keeps the invariant at a HALT and outside the program (43_system.md R113). -/
theorem inv_setHalted (hs : s.Inv) (hf : s.fault = .none) (hh : s.progLen ≤ s.pc ∨ s.atInstr .halt) :
    s.setHalted.Inv where
  memories := hs.memories
  exclusive := fun h => absurd hf h
  pcPlace := hs.pcPlace
  halt := fun _ => hh
  faulted := hs.faulted

/-- An event changes nothing that the invariant speaks of. -/
theorem inv_emit (hs : s.Inv) (e : Event) : (s.emit e).Inv := { hs with }

/-- Inside the program `pc + 1` is at most PROG_LEN (10_state.md R20). -/
theorem pc_succ_le_progLen (h : s.pc < s.progLen) : s.pc + 1 ≤ s.progLen := by bv_omega

theorem unknownLabel_explained {i : Instr} {l : Label} (hat : s.atInstr i) (hj : jumpsBy i s l)
    (hn : labelLookup s l = none) : (raise .unknownLabel l.toNat s).faultExplained := by
  refine ⟨l, rfl, hn, ?_⟩
  rcases hj with rfl | ⟨r, rfl, hz⟩
  · exact .inl hat
  · exact .inr ⟨r, hat, hz⟩

theorem registerOverflow_explained {i : Instr} {r : Reg} (hat : s.atInstr i) (ho : overflows i s r) :
    (raise .registerOverflow (regNumber r) s).faultExplained := by
  refine ⟨r, rfl, ?_⟩
  rcases ho with ⟨rfl, hx⟩ | ⟨l, rfl, hx⟩
  · exact .inl ⟨hat, hx⟩
  · exact .inr ⟨l, hat, hx⟩

/-- An instruction that stands at `pc` keeps the invariant. -/
theorem exec_inv {i : Instr} {t : State} (hs : s.Inv) (hrun : s.running) (hat : s.atInstr i)
    (h : exec i s = .next t) : t.Inv := by
  have hinfo := faultInfo_eq_zero hs.faulted hrun.1
  have hmem := (exec_keepsProgram h).memoryWf hs.memories
  have hpc := pc_succ_le_progLen hat.1
  cases exec_cases h with
  | write r v =>
    exact inv_of_running hmem (by simpa [State.running] using hrun) (.inl (by simpa using hpc)) (by simpa using hinfo)
  | jump l target hj ht => exact inv_of_running hmem hrun (.inr ⟨l, ht⟩) hinfo
  | print => exact inv_of_running hmem hrun (.inl hpc) hinfo
  | halt hi => exact inv_setHalted (inv_emit hs .halt) hrun.1 (.inr (hi ▸ hat))
  | unknownLabel l hj hn => exact inv_raise hs hrun (unknownLabel_explained hat hj hn)
  | overflow r ho => exact inv_raise hs hrun (registerOverflow_explained hat ho)

end

/-- Settles O41: a step that halts or faults explains its halt or fault, and a fetched instruction stands at `pc`. -/
theorem invariantKeptByStep : Obligations.InvariantKeptByStep := by
  intro s t hs h
  rcases step_cases h with ⟨-, rfl⟩ | ⟨-, rfl⟩ | ⟨hrun, hb, rfl⟩ | ⟨hrun, hb, hm, rfl⟩ | ⟨⟨hrun, hb, -⟩, he, rfl⟩ |
    ⟨⟨hrun, hb, -⟩, i, hd, hx⟩
  · exact hs
  · exact hs
  · exact inv_setHalted hs hrun.1 (.inl hb)
  · exact inv_raise hs hrun ⟨rfl, hm, hb⟩
  · exact inv_raise (inv_countStep hs hrun) hrun ⟨hb, by simp, he⟩
  · exact exec_inv (inv_countStep hs hrun) hrun ⟨hb, hd⟩ hx

/-- Settles O42: power-on leaves the machine Running at slot 0 with both memories empty. -/
theorem invariantAtReset : Obligations.InvariantAtReset :=
  inv_of_running reset_memoryWf ⟨rfl, rfl⟩ (.inl (BitVec.le_refl _)) rfl

/-! ### An ended run -/

section
variable {s : State} (hs : s.ended)
include hs

theorem not_running_of_ended : ¬ s.running := by
  rintro ⟨hf, hh⟩
  rcases hs with h | h
  · simp [hh] at h
  · exact h hf

theorem stepped_of_ended : stepped s = s := by
  have hn := not_running_of_ended hs
  rcases step_cases (step_eq_stepped s) with ⟨-, e⟩ | ⟨-, e⟩ | ⟨hr, -⟩ | ⟨hr, -⟩ | ⟨⟨hr, -⟩, -⟩ | ⟨⟨hr, -⟩, -⟩
  · exact e
  · exact e
  all_goals exact absurd hr hn

theorem run_of_ended (n : Nat) : Host.Core.run core n s = .next s := by
  induction n with
  | zero => rfl
  | succ n ih => rw [run_succ, stepped_of_ended hs, ih]

/-- RUN returns at once from an ended run and writes nothing (40_step_cycle.md R92). -/
theorem runIteration_of_ended (budget : Option StepCount) : ∃ st, runIteration budget s = .returns s st := by
  have hn := not_running_of_ended hs
  rcases runIteration_cases budget s with ⟨-, e⟩ | ⟨-, e⟩ | ⟨hr, -⟩ | ⟨hr, -⟩ | ⟨hr, -⟩
  · exact ⟨_, e⟩
  · exact ⟨_, e⟩
  all_goals exact absurd hr hn

theorem runFor_of_ended {n : Nat} {budget : Option StepCount} {t : State} {st : Status}
    (h : runFor n budget s = some (t, st)) : t = s := by
  obtain ⟨st', e⟩ := runIteration_of_ended hs budget
  cases n with
  | zero => cases h
  | succ n =>
    simp only [runFor, e, Option.some.injEq, Prod.mk.injEq] at h
    exact h.1.symm

end

/-- Settles O28: an ended run is left alone by every STEP and RUN; LOAD and RESET rewind to Running. -/
theorem endedUntilReload : Obligations.EndedUntilReload := by
  refine fun s hs => ⟨run_of_ended hs, ?_⟩
  rintro c t st ⟨n, h⟩
  cases c with
  | step =>
    cases h
    exact .inl (stepped_of_ended hs)
  | run budget => exact .inl (runFor_of_ended hs h)
  | reset p q =>
    cases h
    exact .inr ⟨⟨rfl, rfl⟩, .inl ⟨p, q, rfl⟩⟩
  | load img =>
    cases h
    exact .inr ⟨⟨rfl, rfl⟩, .inr ⟨img, rfl⟩⟩

end Sys2Proof.Machine
end

section
/-! SUPPORT. A jump out of the program: the two kinds of step it is made of, each as an equation, and the jump itself
(20_memory.md R38). -/

namespace Sys2Proof.Machine

section
variable {s : State}

/-- A step that fetches a legal word runs its instruction, with the step counted (40_step_cycle.md R86, R87). -/
theorem step_of_fetches (hf : s.fetches) {i : Instr} (hd : decode (fetchWord s s.pc) = .ok i) :
    step s = exec i s.countStep := by
  obtain ⟨⟨hfault, hhalted⟩, hb, hm⟩ := hf
  simp [step, issue, countAndDecode, hfault, hhalted, BitVec.not_le.2 hb, hm, hd]

/-- In Running, a step at or above PROG_LEN halts implicitly (40_step_cycle.md R84). -/
theorem step_of_outside (hrun : s.running) (hb : s.progLen ≤ s.pc) : step s = .next s.setHalted := by
  obtain ⟨hfault, hhalted⟩ := hrun
  simp [step, issue, hfault, hhalted, hb]

theorem stepped_of_step {t : State} (h : step s = .next t) : stepped s = t :=
  Host.Outcome.next.inj ((step_eq_stepped s).symm.trans h)

theorem jump_of_target {l : Label} {target : SlotIndex} (h : labelLookup s l = some target) :
    jump l s = s.setPc target := by
  simp [jump, h]

/-- GOTO and the zero branch of DECJZ are the same jump (42_control_transfer.md R104, R105). -/
theorem exec_of_jumpsBy {i : Instr} {l : Label} (h : jumpsBy i s l) : exec i s = .next (jump l s) := by
  rcases h with rfl | ⟨r, rfl, hz⟩
  · rfl
  · exact congrArg Host.Outcome.next (if_pos ((isZero_iff s r).2 hz))

/-- A fetched jump goes to its label's target, whatever PROG_LEN is (42_control_transfer.md R108). -/
theorem step_of_jumpsBy (hf : s.fetches) {i : Instr} (hd : decode (fetchWord s s.pc) = .ok i) {l : Label}
    (hj : jumpsBy i s l) {target : SlotIndex} (ht : labelLookup s l = some target) :
    step s = .next (s.countStep.setPc target) := by
  have hj' : jumpsBy i s.countStep l := by simpa only [jumpsBy, countStep_x] using hj
  rw [step_of_fetches hf hd, exec_of_jumpsBy hj', jump_of_target (s := s.countStep) ht]

end

/-- Settles O21: the first step is the jump, and the machine it leaves, Running with `pc` outside the program, halts
implicitly in the second. -/
theorem targetsNotChecked : Obligations.TargetsNotChecked := by
  intro s l target hf hat ht hb
  obtain ⟨i, hd, hj⟩ : ∃ i, decode (fetchWord s s.pc) = .ok i ∧ jumpsBy i s l := by
    rcases hat with ⟨-, hd⟩ | ⟨r, ⟨-, hd⟩, hz⟩
    · exact ⟨_, hd, .inl rfl⟩
    · exact ⟨_, hd, .inr ⟨r, rfl, hz⟩⟩
  have hjump : stepped s = s.countStep.setPc target := stepped_of_step (step_of_jumpsBy hf hd hj ht)
  have hhalt : stepped (s.countStep.setPc target) = (s.countStep.setPc target).setHalted :=
    stepped_of_step (step_of_outside hf.1 hb)
  rw [run_succ, run_succ, hjump, hhalt]
  rfl

end Sys2Proof.Machine
end

section
/-! SUPPORT. Encode and Decode: that they are inverse, for any widths and at the reference ones; the decoder of each opcode
number, and from it the opcode map and the illegal words (30_encoding.md R47 to R62). -/

namespace Sys2Proof.Machine

/-! ### Any widths -/

section
variable {p : Params}

/-- Decoding a word reads the fields it was packed from (30_encoding.md R48). -/
theorem num_decode_pack {op r opd : Nat} (hop : op < 8) (hr : r < 2) (hopd : opd < 2 ^ p.XLEN) :
    p.decode (p.pack op r opd) = p.decodeFields op r opd := by
  obtain ⟨eop, er, eopd, -⟩ := num_fields_pack p hop hr hopd
  rw [Params.decode, eop, er, eopd]

theorem label_lt_two_pow_XLEN (hp : p.ok) {l : Nat} (hl : l < 2 ^ p.LBLW) : l < 2 ^ p.XLEN := by
  obtain ⟨-, -, -, -, hle⟩ := hp
  exact hl.trans_le (Nat.pow_le_pow_right (by decide) hle)

/-- An instruction's word is packed from fields of their widths, which decode to it (30_encoding.md R49, R61). -/
theorem num_encode_eq_pack (hp : p.ok) {i : NumInstr} (hi : i.wf p = true) :
    ∃ op r opd, op < 8 ∧ r < 2 ∧ opd < 2 ^ p.XLEN ∧ p.encode i = p.pack op r opd ∧
      p.decodeFields op r opd = some i := by
  have h0 : 0 < 2 ^ p.XLEN := Nat.two_pow_pos _
  cases i with
  | set r v =>
    obtain ⟨hv, hlt⟩ := num_sext_trunc p hp.1 hi
    exact ⟨0, regNumber r, p.trunc v, by decide, regNumber_lt r, hlt, rfl, by simp [Params.decodeFields, hv]⟩
  | inc r => exact ⟨1, regNumber r, 0, by decide, regNumber_lt r, h0, rfl, by simp [Params.decodeFields]⟩
  | decjz r l =>
    have hl : l < 2 ^ p.LBLW := of_decide_eq_true hi
    exact ⟨2, regNumber r, l, by decide, regNumber_lt r, label_lt_two_pow_XLEN hp hl, rfl,
      by simp [Params.decodeFields, hl]⟩
  | goto l =>
    have hl : l < 2 ^ p.LBLW := of_decide_eq_true hi
    exact ⟨3, 0, l, by decide, by decide, label_lt_two_pow_XLEN hp hl, rfl, by simp [Params.decodeFields, hl]⟩
  | print => exact ⟨4, 0, 0, by decide, by decide, h0, rfl, rfl⟩
  | halt => exact ⟨5, 0, 0, by decide, by decide, h0, rfl, rfl⟩

theorem num_encode_lt (hp : p.ok) {i : NumInstr} (hi : i.wf p = true) : p.encode i < 2 ^ p.ILEN := by
  obtain ⟨op, r, opd, hop, hr, hopd, e, -⟩ := num_encode_eq_pack hp hi
  obtain ⟨-, -, -, hlt⟩ := num_fields_pack p hop hr hopd
  rwa [e]

theorem num_decode_encode (hp : p.ok) {i : NumInstr} (hi : i.wf p = true) : p.decode (p.encode i) = some i := by
  obtain ⟨op, r, opd, hop, hr, hopd, e, hd⟩ := num_encode_eq_pack hp hi
  rw [e, num_decode_pack hop hr hopd, hd]

/-- The instruction that fields decode to has the word packed from them: a field that the format requires to be zero is
zero (30_encoding.md R58). -/
theorem num_encode_of_decodeFields (hp : p.ok) {op r opd : Nat} {i : NumInstr} (hr : r < 2) (hopd : opd < 2 ^ p.XLEN)
    (h : p.decodeFields op r opd = some i) : p.encode i = p.pack op r opd := by
  unfold Params.decodeFields at h
  split at h
  · cases h
    rw [Params.encode, regNumber_numReg hr, (num_trunc_sext p hp.1 hopd).1]
  · split_ifs at h with h0
    cases h
    rw [Params.encode, regNumber_numReg hr, h0]
  · split_ifs at h
    cases h
    rw [Params.encode, regNumber_numReg hr]
  · split_ifs at h with h0
    obtain ⟨hr0, -⟩ := h0
    cases h
    rw [Params.encode, hr0]
  · split_ifs at h with h0
    obtain ⟨hr0, hopd0⟩ := h0
    cases h
    rw [Params.encode, hr0, hopd0]
  · split_ifs at h with h0
    obtain ⟨hr0, hopd0⟩ := h0
    cases h
    rw [Params.encode, hr0, hopd0]
  · cases h

theorem num_encode_of_decode (hp : p.ok) {w : Nat} {i : NumInstr} (hw : w < 2 ^ p.ILEN) (h : p.decode w = some i) :
    p.encode i = w :=
  (num_encode_of_decodeFields hp (Nat.mod_lt _ (by decide)) (Nat.mod_lt _ (Nat.two_pow_pos _)) h).trans
    (num_pack_fields p hw)

end

/-- Settles O48: an instruction's word is packed from fields that decode to it, and the fields of a legal word are those
that its instruction packs. -/
theorem encodeDecodeInverseAnyWidths : Obligations.EncodeDecodeInverseAnyWidths := fun _ hp =>
  ⟨fun _ hi => ⟨num_encode_lt hp hi, num_decode_encode hp hi⟩,
    fun _ _ hw h => ⟨num_decode_wf hp.1 h, num_encode_of_decode hp hw h⟩⟩

/-! ### The reference widths -/

theorem reference_ok : Params.reference.ok := by decide

/-- The instruction of a word of the block has that word: what the reference widths say of the word's number. -/
theorem encode_of_decode {w : IWord} {i : Instr} (h : decode w = .ok i) : encode i = w := by
  have hnum : Params.reference.decode w.toNat = some (.ofInstr i) := by rw [reference_decode, h]; rfl
  apply BitVec.eq_of_toNat_eq
  rw [← reference_encode]
  exact num_encode_of_decode reference_ok w.isLt hnum

/-! ### The decoder of each opcode number -/

section
variable {w : IWord}

theorem decode_of_op_zero (h : opField w = 0) : decode w = .ok (.set (Reg.ofBit (regField w)) (sext (opdField w))) := by
  rw [decode, h]
  rfl

theorem decode_of_op_one (h : opField w = 1) : decode w = decodeInc (regField w) (opdField w) := by
  rw [decode, h]
  rfl

theorem decode_of_op_two (h : opField w = 2) : decode w = decodeDecjz (regField w) (opdField w) := by
  rw [decode, h]
  rfl

theorem decode_of_op_three (h : opField w = 3) : decode w = decodeGoto (regField w) (opdField w) := by
  rw [decode, h]
  rfl

theorem decode_of_op_four (h : opField w = 4) : decode w = decodePlain .print (regField w) (opdField w) := by
  rw [decode, h]
  rfl

theorem decode_of_op_five (h : opField w = 5) : decode w = decodePlain .halt (regField w) (opdField w) := by
  rw [decode, h]
  rfl

theorem decode_of_op_reserved (h : 6 ≤ (opField w).toNat) : decode w = .error .reservedOpcode := by
  unfold decode
  split
  case h_7 => rfl
  all_goals omega

end

theorem decode_encode {i : Instr} (hi : i.wf = true) : decode (encode i) = .ok i := by
  cases i with
  | set r v =>
    have hv : inSignedRange v := of_decide_eq_true hi
    simp [encode, decode_of_op_zero, sext_trunc hv]
  | inc r => simp [encode, decode_of_op_one, decodeInc]
  | decjz r l => simp [encode, decode_of_op_two, decodeDecjz]
  | goto l => simp [encode, decode_of_op_three, decodeGoto]
  | print => simp [encode, decode_of_op_four, decodePlain]
  | halt => simp [encode, decode_of_op_five, decodePlain]

/-- Settles O1: the fields of a word are those it is packed from; they decode to the instruction that packs them, and
a legal word is the word of its instruction as at the reference widths. -/
theorem encodeDecodeInverse : Obligations.EncodeDecodeInverse := by
  have hfields : ∀ op r opd, opField (pack op r opd) = op ∧ regField (pack op r opd) = r ∧ opdField (pack op r opd) = opd :=
    fun op r opd => ⟨opField_pack op r opd, regField_pack op r opd, opdField_pack op r opd⟩
  exact ⟨fun r v => hfields 0 r.toBit (trunc v), fun r => hfields 1 r.toBit 0, fun r l => hfields 2 r.toBit (zextLabel l),
    fun l => hfields 3 0 (zextLabel l), hfields 4 0 0, hfields 5 0 0, fun _ => decode_encode,
    fun _ _ h => ⟨decode_wf h, encode_of_decode h⟩⟩

/-! ### The opcode map -/

theorem eq_zero_iff_label_halves (opd : Word) : opd = 0 ↔ labelHigh opd = 0 ∧ labelLow opd = 0 := by
  have := opd.isLt
  rw [bitVec_eq_zero_iff, bitVec_eq_zero_iff, bitVec_eq_zero_iff, toNat_labelHigh, toNat_labelLow]
  omega

/-- The mask of a label operand selects the operand bits above the label (30_encoding.md R57). -/
theorem and_labelMask_eq_zero_iff (opd : Word) : opd &&& 0xFFFF0000#32 = 0 ↔ labelHigh opd = 0 := by
  have hhigh : labelHigh (opd &&& 0xFFFF0000#32) = labelHigh opd :=
    BitVec.extractLsb'_and.trans (BitVec.and_allOnes (x := labelHigh opd))
  have hlow : labelLow (opd &&& 0xFFFF0000#32) = 0 :=
    BitVec.extractLsb'_and.trans (BitVec.and_zero (x := labelLow opd))
  simp only [eq_zero_iff_label_halves (opd &&& 0xFFFF0000#32), hhigh, hlow, and_true]

theorem eq_iff_fields (v w : IWord) :
    v = w ↔ opField v = opField w ∧ regField v = regField w ∧ opdField v = opdField w := by
  refine ⟨fun h => by simp [h], fun ⟨hop, hr, hopd⟩ => ?_⟩
  rw [← pack_fields v, hop, hr, hopd, pack_fields]

/-- A row selects a word field by field. -/
theorem selects_pack_iff (name : String) (op mop : BitVec 3) (r mr : BitVec 1) (opd mopd : Word) (w : IWord) :
    OpcodeRow.selects ⟨name, pack op r opd, pack mop mr mopd⟩ w ↔
      opField w &&& mop = op ∧ regField w &&& mr = r ∧ opdField w &&& mopd = opd := by
  have hop : opField (w &&& pack mop mr mopd) = opField w &&& mop :=
    BitVec.extractLsb'_and.trans (congrArg _ (opField_pack mop mr mopd))
  have hr : regField (w &&& pack mop mr mopd) = regField w &&& mr :=
    BitVec.extractLsb'_and.trans (congrArg _ (regField_pack mop mr mopd))
  have hopd : opdField (w &&& pack mop mr mopd) = opdField w &&& mopd :=
    BitVec.extractLsb'_and.trans (congrArg _ (opdField_pack mop mr mopd))
  rw [OpcodeRow.selects, eq_iff_fields, hop, hr, hopd, opField_pack, regField_pack, opdField_pack]

section
variable (r : Reg) (v : Int) (l : Label) (w : IWord)

theorem set_selects_iff : (Instr.set r v).row.selects w ↔ opField w = 0 := by
  have hrow : (Instr.set r v).row = ⟨"SET", pack 0 0 0, pack (BitVec.allOnes 3) 0 0⟩ := rfl
  simp [hrow, selects_pack_iff, -BitVec.reduceAllOnes]

theorem inc_selects_iff : (Instr.inc r).row.selects w ↔ opField w = 1 ∧ opdField w = 0 := by
  have hrow : (Instr.inc r).row = ⟨"INC", pack 1 0 0, pack (BitVec.allOnes 3) 0 (BitVec.allOnes 32)⟩ := rfl
  simp [hrow, selects_pack_iff, -BitVec.reduceAllOnes]

theorem decjz_selects_iff : (Instr.decjz r l).row.selects w ↔ opField w = 2 ∧ labelHigh (opdField w) = 0 := by
  have hrow : (Instr.decjz r l).row = ⟨"DECJZ", pack 2 0 0, pack (BitVec.allOnes 3) 0 0xFFFF0000#32⟩ := rfl
  rw [hrow, selects_pack_iff, and_labelMask_eq_zero_iff]
  simp [-BitVec.reduceAllOnes]

theorem goto_selects_iff :
    (Instr.goto l).row.selects w ↔ opField w = 3 ∧ regField w = 0 ∧ labelHigh (opdField w) = 0 := by
  have hrow : (Instr.goto l).row = ⟨"GOTO", pack 3 0 0, pack (BitVec.allOnes 3) (BitVec.allOnes 1) 0xFFFF0000#32⟩ := rfl
  rw [hrow, selects_pack_iff, and_labelMask_eq_zero_iff]
  simp [-BitVec.reduceAllOnes]

theorem print_selects_iff : Instr.print.row.selects w ↔ opField w = 4 ∧ regField w = 0 ∧ opdField w = 0 := by
  have hrow : Instr.print.row =
      ⟨"PRINT", pack 4 0 0, pack (BitVec.allOnes 3) (BitVec.allOnes 1) (BitVec.allOnes 32)⟩ := rfl
  simp [hrow, selects_pack_iff, -BitVec.reduceAllOnes]

theorem halt_selects_iff : Instr.halt.row.selects w ↔ opField w = 5 ∧ regField w = 0 ∧ opdField w = 0 := by
  have hrow : Instr.halt.row =
      ⟨"HALT", pack 5 0 0, pack (BitVec.allOnes 3) (BitVec.allOnes 1) (BitVec.allOnes 32)⟩ := rfl
  simp [hrow, selects_pack_iff, -BitVec.reduceAllOnes]

end

/-- An instruction's row selects its word (30_encoding.md R57). -/
theorem row_selects_encode (i : Instr) : i.row.selects (encode i) := by
  cases i with
  | set r v => simp [set_selects_iff, encode]
  | inc r => simp [inc_selects_iff, encode]
  | decjz r l => simp [decjz_selects_iff, encode]
  | goto l => simp [goto_selects_iff, encode]
  | print => simp [print_selects_iff, encode]
  | halt => simp [halt_selects_iff, encode]

/-- A word that an instruction's row selects decodes to an instruction of that row (30_encoding.md R57). -/
theorem decode_of_row_selects {w : IWord} {j : Instr} (h : j.row.selects w) :
    ∃ i, decode w = .ok i ∧ i.row = j.row := by
  cases j with
  | set r v =>
    exact ⟨_, decode_of_op_zero ((set_selects_iff r v w).1 h), rfl⟩
  | inc r =>
    obtain ⟨hop, hopd⟩ := (inc_selects_iff r w).1 h
    exact ⟨.inc (Reg.ofBit (regField w)), by simp [decode_of_op_one hop, decodeInc, hopd], rfl⟩
  | decjz r l =>
    obtain ⟨hop, hhigh⟩ := (decjz_selects_iff r l w).1 h
    exact ⟨.decjz (Reg.ofBit (regField w)) (labelLow (opdField w)),
      by simp [decode_of_op_two hop, decodeDecjz, hhigh], rfl⟩
  | goto l =>
    obtain ⟨hop, hr, hhigh⟩ := (goto_selects_iff l w).1 h
    exact ⟨.goto (labelLow (opdField w)), by simp [decode_of_op_three hop, decodeGoto, hr, hhigh], rfl⟩
  | print =>
    obtain ⟨hop, hr, hopd⟩ := (print_selects_iff w).1 h
    exact ⟨.print, by simp [decode_of_op_four hop, decodePlain, hr, hopd], rfl⟩
  | halt =>
    obtain ⟨hop, hr, hopd⟩ := (halt_selects_iff w).1 h
    exact ⟨.halt, by simp [decode_of_op_five hop, decodePlain, hr, hopd], rfl⟩

/-- Settles O2: a legal word is the word of its instruction, which that instruction's row selects; and a word decodes to
one instruction only, whose row is that of every row that selects the word. -/
theorem opcodeMapSelectsDecoding : Obligations.OpcodeMapSelectsDecoding := by
  refine ⟨fun w i h => encode_of_decode h ▸ row_selects_encode i, fun _ _ => decode_of_row_selects, ?_⟩
  intro w i j hi hj
  obtain ⟨i', hdi, ei⟩ := decode_of_row_selects hi
  obtain ⟨j', hdj, ej⟩ := decode_of_row_selects hj
  have hsame : i' = j' := Except.ok.inj (hdi.symm.trans hdj)
  rw [← ei, ← ej, hsame]

/-! ### The illegal words -/

section
variable (r : BitVec 1) (opd : Word)

theorem decodeInc_error_iff : (∃ e, decodeInc r opd = .error e) ↔ opd ≠ 0 := by
  unfold decodeInc
  split_ifs with h <;> simp_all

theorem decodeDecjz_error_iff : (∃ e, decodeDecjz r opd = .error e) ↔ labelHigh opd ≠ 0 := by
  unfold decodeDecjz
  split_ifs with h <;> simp_all

theorem decodeGoto_error_iff : (∃ e, decodeGoto r opd = .error e) ↔ r ≠ 0 ∨ labelHigh opd ≠ 0 := by
  unfold decodeGoto
  split_ifs with hr h <;> simp_all

theorem decodePlain_error_iff (i : Instr) : (∃ e, decodePlain i r opd = .error e) ↔ r ≠ 0 ∨ opd ≠ 0 := by
  unfold decodePlain
  split_ifs with hr h <;> simp_all

end

theorem opField_cases (w : IWord) : opField w = 0 ∨ opField w = 1 ∨ opField w = 2 ∨ opField w = 3 ∨ opField w = 4 ∨
    opField w = 5 ∨ 6 ≤ (opField w).toNat := by
  generalize opField w = op
  revert op
  decide

/-- The illegal words by their fields (30_encoding.md R59). -/
theorem decode_error_iff (w : IWord) : (∃ e, decode w = .error e) ↔
    6 ≤ (opField w).toNat ∨
    ((opField w = 1 ∨ opField w = 4 ∨ opField w = 5) ∧ opdField w ≠ 0) ∨
    ((opField w = 3 ∨ opField w = 4 ∨ opField w = 5) ∧ regField w ≠ 0) ∨
    ((opField w = 2 ∨ opField w = 3) ∧ labelHigh (opdField w) ≠ 0) := by
  rcases opField_cases w with h | h | h | h | h | h | h
  · simp [decode_of_op_zero h, h]
  · simp [decode_of_op_one h, decodeInc_error_iff, h]
  · simp [decode_of_op_two h, decodeDecjz_error_iff, h]
  · simp [decode_of_op_three h, decodeGoto_error_iff, h]
  · simp [decode_of_op_four h, decodePlain_error_iff, h, or_comm]
  · simp [decode_of_op_five h, decodePlain_error_iff, h, or_comm]
  · simp [decode_of_op_reserved h, h]

/-- A step that fetches an illegal word raises IllegalInstruction, with the step counted (60_exceptions.md R125). -/
theorem step_of_illegal {s : State} (hf : s.fetches) {e : Illegal} (hd : decode (fetchWord s s.pc) = .error e) :
    step s = .next (raise .illegalInstruction (fetchWord s s.pc).toNat s.countStep) := by
  obtain ⟨⟨hfault, hhalted⟩, hb, hm⟩ := hf
  simp [step, issue, countAndDecode, hfault, hhalted, BitVec.not_le.2 hb, hm, hd]

/-- Settles O3: the illegal words by their fields, read as numbers; a step that fetches one; and LOAD, which rewinds. -/
theorem illegalWordsExactly : Obligations.IllegalWordsExactly := by
  refine ⟨fun w => ?_, fun s hf ⟨e, hd⟩ => ⟨_, step_of_illegal hf hd, rfl⟩, ?_⟩
  · have := w.isLt
    rw [decode_error_iff]
    simp only [ne_eq, ← BitVec.toNat_inj, toNat_opField, toNat_regField, toNat_labelHigh, toNat_opdField,
      BitVec.ofNat_eq_ofNat, BitVec.toNat_ofNat]
    omega
  · rintro img s t st ⟨n, h⟩
    cases h
    exact ⟨rfl, rfl⟩

/-! ### The reference encodings -/

/-- Settles O4: by evaluating the decoder at each word. -/
theorem referenceWordsDecode : Obligations.ReferenceWordsDecode := by
  have hillegal : ∀ w ∈ [0xC00000000#36, 0xE00000000#36, 0x200000001#36, 0x700000000#36, 0x400010000#36, 0x900000000#36,
      0xA00000001#36], ∃ e, decode w = .error e := by
    simp only [List.forall_mem_cons]
    exact ⟨⟨_, rfl⟩, ⟨_, rfl⟩, ⟨_, rfl⟩, ⟨_, rfl⟩, ⟨_, rfl⟩, ⟨_, rfl⟩, ⟨_, rfl⟩, by simp⟩
  refine ⟨rfl, rfl, rfl, rfl, rfl, rfl, rfl, rfl, rfl, rfl, rfl, fun w hw i h => ?_⟩
  obtain ⟨e, he⟩ := hillegal w hw
  cases h.symm.trans he

end Sys2Proof.Machine
end

section
/-! SUPPORT. The assembler: what its two passes can do, the image built from their results for any widths and at the
reference ones, and the text it refuses (30_encoding.md R63 to R80). -/

namespace Sys2Proof.Machine

/-! ### The names of a program -/

theorem mem_firstAppearances {t : Text} {seen ts : List Text} : t ∈ firstAppearances seen ts ↔ t ∈ ts ∧ t ∉ seen := by
  induction ts generalizing seen with
  | nil => simp [firstAppearances]
  | cons u us ih =>
    simp only [firstAppearances, List.contains_iff_mem]
    split
    · rename_i hu
      rw [ih, List.mem_cons]
      constructor
      · exact fun ⟨h, hs⟩ => ⟨.inr h, hs⟩
      · rintro ⟨rfl | h, hs⟩
        · exact absurd hu hs
        · exact ⟨h, hs⟩
    · rename_i hu
      rw [List.mem_cons, ih]
      by_cases ht : t = u
      · simp [ht, hu]
      · simp [ht]

/-- The names of a program are those its lines define or refer to (30_encoding.md R75). -/
theorem mem_labelNames {name : Text} {lines : List Text} :
    name ∈ labelNames lines ↔ ∃ line ∈ lines, lineName? line = some name := by
  simp [labelNames, mem_firstAppearances]

/-! ### Pass 1 -/

/-- The lines that become instructions (30_encoding.md R67). -/
def instrLines (lines : List Text) : List Text := lines.filter fun line => !isLabelLine line

section
variable {line : Text} (lines : List Text)

theorem instrLines_cons_of_label (h : isLabelLine line = true) : instrLines (line :: lines) = instrLines lines := by
  simp [instrLines, h]

theorem instrLines_cons_of_instr (h : ¬ isLabelLine line = true) :
    instrLines (line :: lines) = line :: instrLines lines := by
  simp [instrLines, h]

theorem instrLines_append (after : List Text) : instrLines (lines ++ after) = instrLines lines ++ instrLines after :=
  List.filter_append ..

end

/-- The labels that lines define from slot `slot` on, each with the slot it stands at (30_encoding.md R66). -/
def definedLabels : List Text → Nat → List (Text × Nat)
  | [], _ => []
  | line :: lines, slot =>
    if isLabelLine line then (definedName line, slot) :: definedLabels lines slot else definedLabels lines (slot + 1)

/-- A label stands for the number of instruction lines before its definition (30_encoding.md R66). -/
theorem mem_definedLabels {d : Text × Nat} {lines : List Text} {slot : Nat} : d ∈ definedLabels lines slot ↔
    ∃ before line after, lines = before ++ line :: after ∧ isLabelLine line = true ∧
      d = (definedName line, slot + (instrLines before).length) := by
  induction lines generalizing slot with
  | nil => simp [definedLabels]
  | cons line lines ih =>
    by_cases h : isLabelLine line = true
    · simp only [definedLabels, if_pos h, List.mem_cons, ih]
      constructor
      · rintro (rfl | ⟨before, line', after, rfl, h', rfl⟩)
        · exact ⟨[], line, lines, rfl, h, rfl⟩
        · exact ⟨line :: before, line', after, rfl, h', by rw [instrLines_cons_of_label _ h]⟩
      · rintro ⟨_ | ⟨_, before⟩, line', after, e, h', rfl⟩ <;> cases e
        · exact .inl rfl
        · exact .inr ⟨before, line', after, rfl, h', by rw [instrLines_cons_of_label _ h]⟩
    · have hcount : ∀ before, slot + (instrLines (line :: before)).length = slot + 1 + (instrLines before).length := by
        intro before
        rw [instrLines_cons_of_instr _ h, List.length_cons]
        omega
      simp only [definedLabels, if_neg h, ih]
      constructor
      · rintro ⟨before, line', after, rfl, h', rfl⟩
        exact ⟨line :: before, line', after, rfl, h', by rw [hcount]⟩
      · rintro ⟨_ | ⟨_, before⟩, line', after, e, h', rfl⟩ <;> cases e
        · exact absurd h' h
        · exact ⟨before, line', after, rfl, h', by rw [hcount]⟩

/-- Pass 1 fails, by an error of its own, or adds the labels that the lines define, all names distinct
(30_encoding.md R66). -/
theorem collectLabels_cases (lines : List Text) (slot : Nat) {labels : List (Text × Nat)}
    (hl : (labels.map Prod.fst).Nodup) :
    (∃ e, e ≠ .undecidedText ∧ collectLabels lines slot labels = .error e) ∨
    ((∃ n, collectLabels lines slot labels = .ok (labels ++ definedLabels lines slot, n)) ∧
      ((labels ++ definedLabels lines slot).map Prod.fst).Nodup) := by
  induction lines generalizing slot labels with
  | nil => exact .inr (by simpa [collectLabels, definedLabels] using hl)
  | cons line lines ih =>
    simp only [collectLabels, definedLabels]
    split_ifs with hdef hempty hdup
    · exact .inl ⟨.emptyLabel, by simp, rfl⟩
    · exact .inl ⟨.duplicateLabel, by simp, rfl⟩
    · have hl' : ((labels ++ [(definedName line, slot)]).map Prod.fst).Nodup := by
        rw [List.map_append, List.map_cons, List.map_nil, ← List.concat_eq_append]
        exact hl.concat (by simpa using hdup)
      simpa using ih slot hl'
    · exact ih (slot + 1) hl

/-! ### Pass 2 -/

theorem orArityError_ne_undecidedText (opcode : Text) (expected : List ArgShape) (line : Text) (i : Option AsmInstr) :
    orArityError opcode expected line i ≠ .error .undecidedText := by
  cases i <;> simp [orArityError]

theorem parseLine_ne_undecidedText (line : Text) : parseLine line ≠ .error .undecidedText := by
  unfold parseLine
  split
  · simp
  · split_ifs
    case neg => simp
    all_goals exact orArityError_ne_undecidedText _ _ _ _

/-- Pass 2 fails, by an error of its own, or parses every instruction line, in order (30_encoding.md R67). -/
theorem parseLines_cases (lines : List Text) :
    (∃ e, e ≠ .undecidedText ∧ parseLines lines = .error e) ∨
    ∃ is, parseLines lines = .ok is ∧ (instrLines lines).map parseLine = is.map .ok := by
  induction lines with
  | nil => exact .inr ⟨[], rfl, rfl⟩
  | cons line lines ih =>
    by_cases hdef : isLabelLine line = true
    · simpa [parseLines, hdef, instrLines_cons_of_label] using ih
    · cases hp : parseLine line with
      | error e =>
        exact .inl ⟨e, fun he => parseLine_ne_undecidedText line (he ▸ hp), by simp [parseLines, hdef, hp]⟩
      | ok i =>
        rcases ih with ⟨e, he, h⟩ | ⟨is, h, hmap⟩
        · exact .inl ⟨e, he, by simp [parseLines, hdef, hp, h]⟩
        · exact .inr ⟨i :: is, by simp [parseLines, hdef, hp, h], by simp [instrLines_cons_of_instr, hdef, hp, hmap]⟩

/-! ### Both passes -/

/-- What the passes hand to the building of an image: the names of a program, its labels with their slots and its
instructions. Label names are distinct, every label is named and stands at most at the end of the program, and every label
that an instruction refers to is named. -/
structure Passes (names : List Text) (labels : List (Text × Nat)) (instrs : List AsmInstr) : Prop where
  distinct : (labels.map Prod.fst).Nodup
  named : ∀ d ∈ labels, d.1 ∈ names
  inside : ∀ d ∈ labels, d.2 ≤ instrs.length
  referred : ∀ i ∈ instrs, ∀ l, i.label? = some l → l ∈ names

theorem passes_of_parsed {lines : List Text} {is : List AsmInstr} (hl : ((definedLabels lines 0).map Prod.fst).Nodup)
    (hmap : (instrLines lines).map parseLine = is.map .ok) : Passes (labelNames lines) (definedLabels lines 0) is where
  distinct := hl
  named := by
    intro d hd
    obtain ⟨before, line, after, rfl, hdef, rfl⟩ := mem_definedLabels.1 hd
    exact mem_labelNames.2 ⟨line, by simp, by simp [lineName?, hdef]⟩
  inside := by
    intro d hd
    obtain ⟨before, line, after, rfl, hdef, rfl⟩ := mem_definedLabels.1 hd
    have hlen := congrArg List.length hmap
    simp only [instrLines_append, List.map_append, List.length_append, List.length_map] at hlen
    show 0 + (instrLines before).length ≤ is.length
    omega
  referred := by
    intro i hi l hil
    have hok : Except.ok i ∈ (instrLines lines).map parseLine := hmap ▸ List.mem_map_of_mem hi
    obtain ⟨line, hline, hp⟩ := List.mem_map.1 hok
    obtain ⟨hmem, hinstr⟩ := List.mem_filter.1 hline
    exact mem_labelNames.2 ⟨line, hmem, by simp_all [lineName?]⟩

/-- What builds an image of type `α` from label names, labels with their slots and instructions, as `assembleWith` takes
it. -/
abbrev Builder (α : Type) := List Text → List (Text × Nat) → List AsmInstr → Except AsmError α

/-- The passes fail with an error of theirs, whatever is to be built, or build from what they read off the lines
(30_encoding.md R66, R67, R76). -/
theorem assembleLines_cases (lines : List Text) :
    (∃ e, e ≠ .undecidedText ∧ ∀ {α : Type} (build : Builder α), assembleLines build lines = .error e) ∨
    ∃ is, parseLines lines = .ok is ∧ is.length = (instrLines lines).length ∧
      Passes (labelNames lines) (definedLabels lines 0) is ∧
      ∀ {α : Type} (build : Builder α),
        assembleLines build lines = build (labelNames lines) (definedLabels lines 0) is := by
  rcases collectLabels_cases lines 0 (labels := []) List.nodup_nil with ⟨e, he, h1⟩ | ⟨⟨n, h1⟩, hl⟩
  · exact .inl ⟨e, he, fun build => by simp only [assembleLines, h1]⟩
  · rw [List.nil_append] at h1 hl
    rcases parseLines_cases lines with ⟨e, he, h2⟩ | ⟨is, h2, hmap⟩
    · exact .inl ⟨e, he, fun build => by simp only [assembleLines, h1, h2]⟩
    · have hlen : is.length = (instrLines lines).length := by simpa using (congrArg List.length hmap).symm
      exact .inr ⟨is, h2, hlen, passes_of_parsed hl hmap, fun build => by simp only [assembleLines, h1, h2]⟩

section
variable {α : Type} {build : Builder α} {source : Text}

theorem assembleWith_of_undecided (h : source.any isUndecided = true) :
    assembleWith build source = .error .undecidedText := if_pos h

theorem assembleWith_of_decided (h : ¬ source.any isUndecided = true) :
    assembleWith build source = assembleLines build (normalise source) := if_neg h

/-- An image is built from what the passes read off the lines. -/
theorem assembleWith_ok {a : α} (h : assembleWith build source = .ok a) :
    ∃ is, parseLines (normalise source) = .ok is ∧ is.length = (instrLines (normalise source)).length ∧
      Passes (labelNames (normalise source)) (definedLabels (normalise source) 0) is ∧
      build (labelNames (normalise source)) (definedLabels (normalise source) 0) is = .ok a := by
  by_cases hu : source.any isUndecided = true
  · cases (assembleWith_of_undecided hu).symm.trans h
  · rw [assembleWith_of_decided hu] at h
    rcases assembleLines_cases (normalise source) with ⟨e, -, he⟩ | ⟨is, hp, hlen, hpass, hbuild⟩
    · cases (he build).symm.trans h
    · exact ⟨is, hp, hlen, hpass, (hbuild build).symm.trans h⟩

end

/-! ### The refused text -/

/-- The image of a program where it fits, else CapacityError (30_encoding.md R77). -/
theorem buildImage_cases (names : List Text) (labels : List (Text × Nat)) (instrs : List AsmInstr) :
    buildImage names labels instrs =
      .ok ⟨instrs.map fun i => encode (i.resolve names), labels.map fun d => (labelId names d.1, BitVec.ofNat 16 d.2)⟩ ∨
    buildImage names labels instrs = .error .capacity :=
  ite_eq_or_eq ..

/-- Settles O54: the refusal comes first, and neither a pass nor the building of the image fails with it. -/
theorem undecidedTextRefused : Obligations.UndecidedTextRefused := by
  intro source
  rw [← List.any_eq_true]
  refine ⟨fun h => ?_, assembleWith_of_undecided⟩
  by_contra hu
  rw [assemble, assembleWith_of_decided hu] at h
  rcases assembleLines_cases (normalise source) with ⟨e, he, heq⟩ | ⟨is, -, -, -, heq⟩ <;> rw [heq] at h
  · exact he (Except.error.inj h)
  · rcases buildImage_cases (labelNames (normalise source)) (definedLabels (normalise source) 0) is with hb | hb <;>
      cases hb.symm.trans h

/-! ### Lines and slots -/

theorem buildImage_ok {names : List Text} {labels : List (Text × Nat)} {instrs : List AsmInstr} {img : Image}
    (h : buildImage names labels instrs = .ok img) :
    img = ⟨instrs.map fun i => encode (i.resolve names),
      labels.map fun d => (labelId names d.1, BitVec.ofNat 16 d.2)⟩ := by
  rcases buildImage_cases names labels instrs with hb | hb <;> cases hb.symm.trans h
  rfl

/-- Settles O45: the words are those of the parsed lines, and a label line is found among the defined labels. -/
theorem linesMapToSlots : Obligations.LinesMapToSlots := by
  intro source img h
  obtain ⟨is, hp, hlen, -, hb⟩ := assembleWith_ok h
  obtain rfl := buildImage_ok hb
  refine ⟨⟨is, hp, rfl⟩, (List.length_map _).trans hlen, fun before line after hlines hdef => ?_⟩
  have hd := mem_definedLabels (slot := 0).2 ⟨before, line, after, hlines, hdef, rfl⟩
  exact List.mem_map.2 ⟨_, hd, by rw [Nat.zero_add]; rfl⟩

/-! ### The image for any widths -/

theorem buildNumImage_ok {p : Params} {names : List Text} {labels : List (Text × Nat)} {instrs : List AsmInstr}
    {img : NumImage} (h : buildNumImage p names labels instrs = .ok img) :
    instrs.length ≤ p.MAXLEN ∧ names.length ≤ 2 ^ p.LBLW ∧ (∀ i ∈ instrs, (i.number names).wf p = true) ∧
      img = ⟨instrs.map fun i => p.encode (i.number names), labels.map fun d => (names.idxOf d.1, d.2)⟩ := by
  unfold buildNumImage at h
  split_ifs at h with hfits
  cases h
  obtain ⟨hlen, hnames, hwf⟩ := hfits
  exact ⟨hlen, hnames, by simpa using hwf, rfl⟩

/-- Distinct names of a list have distinct positions in it. -/
theorem idxOf_nodup {names ts : List Text} (hts : ts.Nodup) (h : ∀ t ∈ ts, t ∈ names) :
    (ts.map fun t => names.idxOf t).Nodup :=
  hts.map_on fun _ hx _ _ e => (List.idxOf_inj (h _ hx)).1 e

/-- An image built from what the passes hand over fits the port of its widths, and holds words of well-formed instructions
and targets inside the program (30_encoding.md R76, R77). -/
theorem numImage_sound {p : Params} (hp : p.ok) {names : List Text} {labels : List (Text × Nat)}
    {instrs : List AsmInstr} {img : NumImage} (hpass : Passes names labels instrs)
    (h : buildNumImage p names labels instrs = .ok img) :
    img.wf p ∧ (∀ w ∈ img.words, ∃ i : NumInstr, i.wf p ∧ p.decode w = some i ∧ p.encode i = w) ∧
      ∀ d ∈ img.labels, d.2 ≤ img.words.length := by
  obtain ⟨hlen, hnames, hwf, rfl⟩ := buildNumImage_ok h
  refine ⟨⟨by simpa using hlen, ?_, ?_, ?_⟩, ?_, ?_⟩
  · intro w hw
    obtain ⟨i, hi, rfl⟩ := List.mem_map.1 hw
    exact num_encode_lt hp (hwf i hi)
  · have := idxOf_nodup hpass.distinct (names := names) (by simpa using hpass.named)
    simpa [Function.comp_def] using this
  · intro _ hlabel
    obtain ⟨d, hd, rfl⟩ := List.mem_map.1 hlabel
    have hpos : names.idxOf d.1 < names.length := List.idxOf_lt_length_of_mem (hpass.named d hd)
    have hslot := hpass.inside d hd
    have := Nat.two_pow_pos p.PCW
    exact ⟨by omega, by unfold Params.MAXLEN at hlen; omega⟩
  · intro w hw
    obtain ⟨i, hi, rfl⟩ := List.mem_map.1 hw
    exact ⟨_, hwf i hi, num_decode_encode hp (hwf i hi), rfl⟩
  · intro _ hlabel
    obtain ⟨d, hd, rfl⟩ := List.mem_map.1 hlabel
    simpa using hpass.inside d hd

/-! ### The reference widths -/

theorem reference_MAXLEN : Params.reference.MAXLEN = Config.MAXLEN := rfl

/-- The block's encoding admits the operands that the encoding of the reference widths admits. -/
theorem ofInstr_wf (i : Instr) : (NumInstr.ofInstr i).wf Params.reference = i.wf := by
  cases i with
  | set r v => exact holds_reference v
  | inc r => rfl
  | decjz r l => exact decide_eq_true l.isLt
  | goto l => exact decide_eq_true l.isLt
  | print => rfl
  | halt => rfl

section
variable {names : List Text} (hnames : names.length ≤ 2 ^ 16)
include hnames

/-- Up to 2^LBLW names, an identifier is the name's position (30_encoding.md R75). -/
theorem toNat_labelId {l : Text} (hl : l ∈ names) : (labelId names l).toNat = names.idxOf l := by
  have hpos : names.idxOf l < names.length := List.idxOf_lt_length_of_mem hl
  rw [labelId, BitVec.toNat_ofNat, Nat.mod_eq_of_lt (by omega)]

theorem ofInstr_resolve {i : AsmInstr} (hi : ∀ l, i.label? = some l → l ∈ names) :
    NumInstr.ofInstr (i.resolve names) = i.number names := by
  cases i with
  | set r v => rfl
  | inc r => rfl
  | decjz r l => exact congrArg (NumInstr.decjz r) (toNat_labelId hnames (hi l rfl))
  | goto l => exact congrArg NumInstr.goto (toNat_labelId hnames (hi l rfl))
  | print => rfl
  | halt => rfl

end

section
variable {names : List Text} {labels : List (Text × Nat)} {instrs : List AsmInstr} (hpass : Passes names labels instrs)
  (hnames : names.length ≤ 2 ^ 16)
include hpass hnames

theorem map_number_eq : instrs.map (AsmInstr.number names) = (instrs.map (AsmInstr.resolve names)).map NumInstr.ofInstr := by
  rw [List.map_map]
  exact List.map_congr_left fun i hi => (ofInstr_resolve hnames (hpass.referred i hi)).symm

theorem numbered_wf_eq : (instrs.map (AsmInstr.number names)).all (NumInstr.wf Params.reference) =
    (instrs.map (AsmInstr.resolve names)).all Instr.wf := by
  rw [map_number_eq hpass hnames, List.all_map]
  exact congrArg (List.all _) (funext ofInstr_wf)

theorem words_numbers : instrs.map (fun i => Params.reference.encode (i.number names)) =
    (instrs.map fun i => encode (i.resolve names)).map BitVec.toNat := by
  rw [List.map_map]
  refine List.map_congr_left fun i hi => ?_
  rw [← ofInstr_resolve hnames (hpass.referred i hi), reference_encode]
  rfl

theorem labels_numbers (hlen : instrs.length ≤ Config.MAXLEN) : labels.map (fun d => (names.idxOf d.1, d.2)) =
    (labels.map fun d => (labelId names d.1, BitVec.ofNat 16 d.2)).map fun d => (d.1.toNat, d.2.toNat) := by
  rw [List.map_map]
  refine List.map_congr_left fun d hd => ?_
  have hslot := hpass.inside d hd
  have hlt : d.2 < 2 ^ 16 := by
    simp only [Config.MAXLEN, Config.PCW] at hlen
    omega
  simp only [Function.comp_apply, toNat_labelId hnames (hpass.named d hd), BitVec.toNat_ofNat, Nat.mod_eq_of_lt hlt]

end

/-- At the reference widths the image built is the block's, in numbers, or the same error (30_encoding.md R76, R77). -/
theorem buildNumImage_reference {names : List Text} {labels : List (Text × Nat)} {instrs : List AsmInstr}
    (hpass : Passes names labels instrs) :
    buildNumImage Params.reference names labels instrs = (buildImage names labels instrs).map Image.numbers := by
  unfold buildNumImage buildImage
  by_cases hnames : names.length ≤ 2 ^ 16
  · rw [numbered_wf_eq hpass hnames, words_numbers hpass hnames, reference_MAXLEN, reference_LBLW]
    split_ifs with hfits
    · rw [labels_numbers hpass hnames hfits.1]
      rfl
    · rfl
  · rw [if_neg fun h => hnames h.2.1, if_neg fun h => hnames h.2.1]
    rfl

theorem exists_decode_of_reference {w : IWord} {i : NumInstr} (h : Params.reference.decode w.toNat = some i) :
    ∃ j, decode w = .ok j := by
  rw [reference_decode] at h
  cases hd : decode w with
  | ok j => exact ⟨j, rfl⟩
  | error e =>
    rw [hd] at h
    cases h

/-- Settles O53: for any widths what the passes hand over makes a sound image; at the reference widths the same passes
hand the same to both builders. -/
theorem assembledImagesAnyWidths : Obligations.AssembledImagesAnyWidths := by
  refine ⟨fun p source img hp h => ?_, fun source => ?_⟩
  · obtain ⟨is, -, -, hpass, hb⟩ := assembleWith_ok h
    exact numImage_sound hp hpass hb
  · by_cases hu : source.any isUndecided = true
    · rw [assembleFor, assemble, assembleWith_of_undecided hu, assembleWith_of_undecided hu]
      rfl
    · rw [assembleFor, assemble, assembleWith_of_decided hu, assembleWith_of_decided hu]
      rcases assembleLines_cases (normalise source) with ⟨e, -, he⟩ | ⟨is, -, -, hpass, hbuild⟩
      · rw [he, he]
        rfl
      · rw [hbuild, hbuild, buildNumImage_reference hpass]

/-- Settles O44: the block's image in numbers is an image of the reference widths. -/
theorem assembledImagesAreSound : Obligations.AssembledImagesAreSound := by
  intro source img h
  have hnum : assembleFor Params.reference source = .ok img.numbers := by
    rw [assembledImagesAnyWidths.2 source, h]
    rfl
  obtain ⟨⟨hlen, -, hnodup, -⟩, hwords, htargets⟩ := assembledImagesAnyWidths.1 _ _ _ reference_ok hnum
  refine ⟨(image_wf_iff img).2 ⟨(List.length_map _).symm.trans_le hlen, ?_⟩, fun w hw => ?_, fun d hd => ?_⟩
  · have : ((img.labels.map Prod.fst).map BitVec.toNat).Nodup := by simpa [Image.numbers, Function.comp_def] using hnodup
    exact this.of_map
  · obtain ⟨_, -, hd, -⟩ := hwords w.toNat (List.mem_map_of_mem hw)
    obtain ⟨i, hi⟩ := exists_decode_of_reference hd
    exact ⟨i, decode_wf hi, hi, encode_of_decode hi⟩
  · simpa [Image.numbers] using htargets _ (List.mem_map_of_mem hd)

end Sys2Proof.Machine
end

section
/-! SUPPORT. The step cycle: what a STEP returns, where a RUN returns, that a RUN is its repeated STEPs, and the word
placed where the next step fetches (40_step_cycle.md). -/

namespace Sys2Proof.Machine

/-! ### The status of a step -/

section
variable {s t : State} {st : Status}

theorem stepStatus_of_faulted (hs : s.isFaulted) : stepStatus s t = .faulted s.fault := if_pos hs

theorem stepStatus_of_raised (hs : s.fault = .none) (ht : t.isFaulted) : stepStatus s t = .fault t.fault :=
  (if_neg (not_not.2 hs)).trans (if_pos ht)

theorem stepStatus_of_no_fault (hs : s.fault = .none) (ht : t.fault = .none) : stepStatus s t = .ok :=
  (if_neg (not_not.2 hs)).trans (if_neg (not_not.2 ht))

/-- STEP always completes, at the state the step answers and only there (40_step_cycle.md R96). -/
theorem step_completes_iff {u : State} (h : step s = .next u) :
    Command.step.completes s t st ↔ t = u ∧ st = stepStatus s u := by
  simp [Command.completes, Command.perform, stepped_of_step h, eq_comm]

theorem step_of_ended (hs : s.ended) : step s = .next s := by
  rw [step_eq_stepped, stepped_of_ended hs]

end

/-- Settles O20: the status is `stepStatus`, in each of its three cases. -/
theorem statusOfStep : Obligations.StatusOfStep := by
  intro s t st h
  obtain ⟨rfl, rfl⟩ := (step_completes_iff (step_eq_stepped s)).1 h
  exact ⟨step_eq_stepped s, stepStatus_of_faulted, fun hs => stepStatus_of_raised (not_not.1 hs),
    fun hs ht => stepStatus_of_no_fault (not_not.1 hs) (not_not.1 ht)⟩

/-- Settles O15: a latched fault ends the run, and STEP reports its code. -/
theorem faultedStepRefused : Obligations.FaultedStepRefused := by
  intro s hs
  have hstep : step s = .next s := step_of_ended (.inr hs)
  refine ⟨hstep, fun t st => ?_⟩
  rw [step_completes_iff hstep, stepStatus_of_faulted hs]

/-- Settles O16: Halted ends the run, and with no fault latched STEP reports OK. -/
theorem haltedStepDoesNothing : Obligations.HaltedStepDoesNothing := by
  intro s hs
  have hstep : step s = .next s := step_of_ended (.inl hs.2)
  refine ⟨hstep, fun t st => ?_⟩
  rw [step_completes_iff hstep, stepStatus_of_no_fault hs.1 hs.1]

/-! ### A step that fetches, and the implicit halt -/

/-- Settles O14: the two kinds of step that fetch, one for a legal word and one for an illegal one. -/
theorem stepRunsDecodedInstruction : Obligations.StepRunsDecodedInstruction := by
  refine fun s hf => ⟨fun i hd => step_of_fetches hf hd, fun e hd => ?_⟩
  rw [step_of_illegal hf hd, raise, BitVec.ofNat_toNat, BitVec.setWidth_eq]
  rfl

/-- A step that fetches halts only at a HALT (40_step_cycle.md R84, 10_state.md R21). -/
theorem atInstr_halt_of_step_halted {s t : State} (hf : s.fetches) (h : step s = .next t) (ht : t.halted = true) :
    s.atInstr .halt := by
  have hrun : s.halted = false := hf.1.2
  cases hd : decode (fetchWord s s.pc) with
  | error e =>
    cases (step_of_illegal hf hd).symm.trans h
    exact absurd ht (by simp [hrun])
  | ok i =>
    by_cases hi : i = .halt
    · exact ⟨hf.2.1, hi ▸ hd⟩
    · have hkeep := exec_halted ((step_of_fetches hf hd).symm.trans h) hi
      exact absurd ht (by simp [hkeep, hrun])

/-- Settles O17: the step outside the program is `setHalted`, and of the steps inside it only a HALT halts. -/
theorem implicitHaltIsSilent : Obligations.ImplicitHaltIsSilent := by
  refine ⟨fun s hrun hb => ?_, fun s t => atInstr_halt_of_step_halted⟩
  have hstep : step s = .next s.setHalted := step_of_outside hrun hb
  have hok : stepStatus s s.setHalted = .ok := stepStatus_of_no_fault hrun.1 hrun.1
  refine ⟨hstep, fun t st => ?_⟩
  rw [step_completes_iff hstep, hok]
  rfl

/-! ### One iteration of RUN -/

section
variable {budget : Option StepCount} {s t u : State} {st st' : Status}

theorem runFor_of_returns (h : runIteration budget s = .returns u st') (n : Nat) :
    runFor (n + 1) budget s = some (u, st') := by
  simp only [runFor, h]

theorem runFor_of_again (h : runIteration budget s = .again u) (n : Nat) :
    runFor (n + 1) budget s = runFor n budget u := by
  simp only [runFor, h]

/-- A RUN whose first iteration returns completes there and only there. -/
theorem run_completes_iff_of_returns (h : runIteration budget s = .returns u st') :
    (Command.run budget).completes s t st ↔ t = u ∧ st = st' := by
  constructor
  · rintro ⟨_ | n, hn⟩
    · cases hn
    · cases (runFor_of_returns h n).symm.trans hn
      exact ⟨rfl, rfl⟩
  · rintro ⟨rfl, rfl⟩
    exact ⟨1, runFor_of_returns h 0⟩

/-- A RUN whose first iteration goes on completes where the RUN from the next state does. -/
theorem run_completes_iff_of_again (h : runIteration budget s = .again u) :
    (Command.run budget).completes s t st ↔ (Command.run budget).completes u t st := by
  constructor
  · rintro ⟨_ | n, hn⟩
    · cases hn
    · exact ⟨n, (runFor_of_again h n).symm.trans hn⟩
  · rintro ⟨n, hn⟩
    exact ⟨n + 1, (runFor_of_again h n).trans hn⟩

theorem runIteration_of_halted (hf : s.fault = .none) (hh : s.halted = true) :
    runIteration budget s = .returns s .ok := by
  simp [runIteration, hf, hh]

/-- The budget check raises StepLimitExceeded before the step (40_step_cycle.md R91). -/
theorem runIteration_of_spent (hrun : s.running) (hb : budgetSpent budget s = true) :
    runIteration budget s = .returns (raise .stepLimitExceeded (budgetValue budget) s) (.fault .stepLimitExceeded) := by
  simp [runIteration, hrun.1, hrun.2, hb]

theorem runIteration_of_raised (hrun : s.running) (hb : budgetSpent budget s = false) (ht : (stepped s).isFaulted) :
    runIteration budget s = .returns (stepped s) (.fault (stepped s).fault) := by
  simp [runIteration, hrun.1, hrun.2, hb, ht]

theorem runIteration_of_no_fault (hrun : s.running) (hb : budgetSpent budget s = false)
    (ht : (stepped s).fault = .none) : runIteration budget s = .again (stepped s) := by
  simp [runIteration, hrun.1, hrun.2, hb, ht]

/-- A budget that is not used up has no part in the iteration (40_step_cycle.md R91). -/
theorem runIteration_of_not_spent (hb : budgetSpent budget s = false) :
    runIteration budget s = runIteration none s := by
  have hnone : budgetSpent none s = false := rfl
  simp only [runIteration, hb, hnone, Bool.false_eq_true, if_false]

/-- No step raises StepLimitExceeded: the budget check of RUN does (60_exceptions.md R124). -/
theorem step_fault_ne_stepLimitExceeded (hs : s.fault = .none) (h : step s = .next t) :
    t.fault ≠ .stepLimitExceeded := by
  rcases step_cases_by_fetch h with ⟨-, rfl | rfl | rfl⟩ | ⟨-, rfl | ⟨i, hx⟩⟩
  · simp [hs]
  · simp [hs]
  · simp
  · simp
  · rcases exec_fault hx with ⟨e, -⟩ | ⟨e | e, -⟩
    · simp [e, hs]
    · simp [e]
    · simp [e]

/-- Without a budget, an iteration from Running that returns does so with the fault of its step. -/
theorem runIteration_none_status (hrun : s.running) (h : runIteration none s = .returns t st) :
    st ≠ .fault .stepLimitExceeded := by
  by_cases hf : (stepped s).fault = .none
  · cases (runIteration_of_no_fault hrun rfl hf).symm.trans h
  · cases (runIteration_of_raised hrun rfl hf).symm.trans h
    exact fun e => step_fault_ne_stepLimitExceeded hrun.1 (step_eq_stepped s) (Status.fault.inj e)

end

/-- Settles O37: a budget at or below `steps` is used up, one above is not, and a missing one never is. -/
theorem budgetCheckedBeforeStep : Obligations.BudgetCheckedBeforeStep := by
  refine fun b s hrun => ⟨fun hb t st => ?_, fun hb => ?_, fun t st => runIteration_none_status hrun⟩
  · exact run_completes_iff_of_returns (runIteration_of_spent hrun (decide_eq_true hb))
  · exact runIteration_of_not_spent (decide_eq_false (BitVec.not_le.2 hb))

/-! ### A RUN without a budget is its repeated STEPs -/

/-- The status of a RUN that its own steps end at `t` (40_step_cycle.md R96). -/
def endStatus (t : State) : Status := if t.fault = .none then .ok else .fault t.fault

/-- Repeated steps from `s` end the run at `t`, where a RUN reports `st` (40_step_cycle.md R94, R96). -/
def stepsEnd (s t : State) (st : Status) : Prop :=
  (∃ n, Host.Core.run core n s = .next t) ∧ t.ended ∧ st = endStatus t

section
variable {s t : State} {st : Status}

theorem stepsEnd_refl_of_halted (hf : s.fault = .none) (hh : s.halted = true) : stepsEnd s s .ok :=
  ⟨⟨0, rfl⟩, .inl hh, (if_pos hf).symm⟩

theorem stepsEnd_refl_of_faulted (hf : s.isFaulted) : stepsEnd s s (.fault s.fault) :=
  ⟨⟨0, rfl⟩, .inr hf, (if_neg hf).symm⟩

theorem stepsEnd_of_stepped (h : stepsEnd (stepped s) t st) : stepsEnd s t st := by
  obtain ⟨⟨n, hn⟩, hend⟩ := h
  exact ⟨⟨n + 1, (run_succ n s).trans hn⟩, hend⟩

/-- A RUN without a budget returns where repeated steps end the run. -/
theorem stepsEnd_of_runFor {n : Nat} (hs : s.fault = .none) (h : runFor n none s = some (t, st)) : stepsEnd s t st := by
  induction n generalizing s with
  | zero => cases h
  | succ n ih =>
    cases hh : s.halted with
    | true =>
      cases (runFor_of_returns (runIteration_of_halted hs hh) n).symm.trans h
      exact stepsEnd_refl_of_halted hs hh
    | false =>
      apply stepsEnd_of_stepped
      by_cases hf : (stepped s).fault = .none
      · exact ih hf ((runFor_of_again (runIteration_of_no_fault ⟨hs, hh⟩ rfl hf) n).symm.trans h)
      · cases (runFor_of_returns (runIteration_of_raised ⟨hs, hh⟩ rfl hf) n).symm.trans h
        exact stepsEnd_refl_of_faulted hf

/-- Where `n` steps end the run, a RUN without a budget returns (40_step_cycle.md R92). -/
theorem run_completes_of_steps {n : Nat} (hs : s.fault = .none) (h : Host.Core.run core n s = .next t) (ht : t.ended) :
    (Command.run none).completes s t (endStatus t) := by
  induction n generalizing s with
  | zero =>
    obtain rfl : s = t := Host.Outcome.next.inj h
    have hh : s.halted = true := ht.resolve_right (not_not.2 hs)
    exact (run_completes_iff_of_returns (runIteration_of_halted hs hh)).2 ⟨rfl, if_pos hs⟩
  | succ n ih =>
    rw [run_succ] at h
    cases hh : s.halted with
    | true =>
      rw [stepped_of_ended (.inl hh)] at h
      exact ih hs h
    | false =>
      by_cases hf : (stepped s).fault = .none
      · exact (run_completes_iff_of_again (runIteration_of_no_fault ⟨hs, hh⟩ rfl hf)).2 (ih hf h)
      · cases (run_of_ended (.inr hf) n).symm.trans h
        exact (run_completes_iff_of_returns (runIteration_of_raised ⟨hs, hh⟩ rfl hf)).2 ⟨rfl, if_neg hf⟩

end

/-- Settles O38: each iteration of the RUN is one STEP, until the first that ends the run. -/
theorem runIsRepeatedStep : Obligations.RunIsRepeatedStep := by
  refine fun s t st hrun => ⟨fun ⟨_, h⟩ => stepsEnd_of_runFor hrun.1 h, ?_⟩
  rintro ⟨⟨_, h⟩, ht, rfl⟩
  exact run_completes_of_steps hrun.1 h ht

/-! ### A GOTO to its own slot -/

/-- In Running at a GOTO whose target is its own slot (40_step_cycle.md R95). -/
def selfLoop (s : State) (l : Label) : Prop := s.running ∧ s.atInstr (.goto l) ∧ labelLookup s l = some s.pc

section
variable {s : State} {l : Label}

theorem selfLoop_countStep (h : selfLoop s l) : selfLoop s.countStep l := h

/-- A step of the loop only counts, as long as the step counter can (40_step_cycle.md R86). -/
theorem stepped_of_selfLoop (h : selfLoop s l) (hm : s.steps ≠ Config.maxSteps) : stepped s = s.countStep := by
  obtain ⟨hrun, ⟨hb, hd⟩, ht⟩ := h
  exact stepped_of_step (step_of_jumpsBy ⟨hrun, hb, hm⟩ hd (.inl rfl) ht)

theorem runIteration_of_selfLoop (h : selfLoop s l) (hm : s.steps ≠ Config.maxSteps) :
    runIteration none s = .again s.countStep := by
  have hstep := stepped_of_selfLoop h hm
  rw [runIteration_of_no_fault h.1 rfl (hstep ▸ h.1.1), hstep]

theorem ne_maxSteps_of_lt {c : StepCount} (h : c.toNat + 1 < 2 ^ 64) : c ≠ Config.maxSteps := by
  rintro rfl
  exact absurd h (by decide)

/-- `n` steps of the loop add `n` to the step counter, and RUN has not returned within them. -/
theorem selfLoop_runs (h : selfLoop s l) {n : Nat} (hn : s.steps.toNat + n < 2 ^ 64) :
    Host.Core.run core n s = .next { s with steps := s.steps + BitVec.ofNat 64 n } ∧ runFor n none s = none := by
  induction n generalizing s with
  | zero => exact ⟨by simp [Host.Core.run], rfl⟩
  | succ n ih =>
    have hm : s.steps ≠ Config.maxSteps := ne_maxSteps_of_lt (by omega)
    have hcount : s.countStep.steps.toNat + n < 2 ^ 64 := by
      rw [countStep_steps, toNat_add_one_of_ne_maxSteps hm]
      omega
    obtain ⟨hrun, hfor⟩ := ih (selfLoop_countStep h) hcount
    constructor
    · rw [run_succ, stepped_of_selfLoop h hm, hrun, countStep_steps, BitVec.add_assoc, BitVec.add_comm 1,
        BitVec.ofNat_add]
      rfl
    · rw [runFor_of_again (runIteration_of_selfLoop h hm), hfor]

end

/-- Settles O40: the loop is kept by each of its steps. -/
theorem selfLoopRunsOn : Obligations.SelfLoopRunsOn :=
  fun _ _ _ hrun hat ht hn => selfLoop_runs ⟨hrun, hat, ht⟩ hn

/-! ### The word placed where the next step fetches -/

/-- The slot a word is placed in lies in a program (00_scope.md R8). -/
theorem placeSlot_lt_succ (s : State) : placeSlot s < placeSlot s + 1 := by
  have hne : placeSlot s ≠ 0xFFFF#16 := by
    unfold placeSlot
    split
    · decide
    · assumption
  bv_omega

section
variable (s : State) (nbits w : Nat)

/-- The next step after placing a word fetches (log entry 10). -/
theorem placeFetchWord_fetches : (placeFetchWord s nbits w).fetches := by
  refine ⟨⟨rfl, rfl⟩, ?_, ?_⟩
  · show placeSlot s < if placeSlot s < s.progLen then s.progLen else placeSlot s + 1
    split
    · assumption
    · exact placeSlot_lt_succ s
  · show (if s.steps = Config.maxSteps then 0 else s.steps) ≠ Config.maxSteps
    split
    · decide
    · assumption

/-- The word that step fetches is the one placed. -/
theorem fetchWord_placeFetchWord (hs : s.memoryWf) :
    fetchWord (placeFetchWord s nbits w) (placeFetchWord s nbits w).pc = BitVec.ofNat 36 (w % 2 ^ nbits) :=
  read_write_same hs.1 _ _

end

/-- An instruction of the opcode table is what its placed word decodes to (log entry 11). -/
theorem decode_of_decodeTableWord {nbits w : Nat} {i : Instr} (h : decodeTableWord nbits w = some i) :
    decode (BitVec.ofNat 36 (w % 2 ^ nbits)) = .ok i := by
  simp only [decodeTableWord] at h
  split at h
  · cases hd : decode (BitVec.ofNat 36 (w % 2 ^ nbits)) with
    | error e => simp [hd, Except.toOption] at h
    | ok j => simpa [hd, Except.toOption] using h
  · cases h

/-- Settles O46: the placed word is fetched and decodes to its instruction; placing writes no register, no label entry
and no event. -/
theorem placedWordRuns : Obligations.PlacedWordRuns := by
  intro s nbits w i hs hi t
  have hf : t.fetches := placeFetchWord_fetches s nbits w
  have hd : decode (fetchWord t t.pc) = .ok i :=
    (congrArg decode (fetchWord_placeFetchWord s nbits w hs)).trans (decode_of_decodeTableWord hi)
  exact ⟨hf, step_of_fetches hf hd, fun r => by cases r <;> rfl, rfl, rfl⟩

end Sys2Proof.Machine
end

section
/-! SUPPORT. The register instructions (41_register_ops.md): the next state of SET and INC, that INC and DECJZ never wrap,
and the machine with unbounded registers (00_scope.md R8), which a run without RegisterOverflow agrees with. -/

namespace Sys2Proof.Machine

/-! ### The next state -/

section
variable (r : Reg) (s : State)

theorem setReg_advance_eq_withRegPc (v : Word) : (s.setReg r v).advance = s.withRegPc r v (s.pc + 1) := by
  cases r <;> rfl

theorem raise_regNumber_eq_withFault (c : FaultCode) :
    raise c (regNumber r) s = s.withFault c (r.toBit.setWidth 36) := by
  cases r <;> rfl

/-- Where XLEN bits hold the sum, an addition completes with a register that reads as it (41_register_ops.md R99). -/
theorem addTo_of_inRange {d : Int} (h : inSignedRange (s.x r + d)) :
    ∃ w : Word, w.toInt = s.x r + d ∧ addTo r d s = s.withRegPc r w (s.pc + 1) := by
  rcases addTo_cases r d s with ⟨-, e⟩ | ⟨hn, -⟩
  · exact ⟨trunc (s.x r + d), sext_trunc h, e.trans (setReg_advance_eq_withRegPc r s _)⟩
  · exact absurd h hn

/-- Where XLEN bits do not hold the sum, an addition latches RegisterOverflow(r) and nothing else (60_exceptions.md R127). -/
theorem addTo_of_not_inRange {d : Int} (h : ¬ inSignedRange (s.x r + d)) :
    addTo r d s = s.withFault .registerOverflow (r.toBit.setWidth 36) := by
  rcases addTo_cases r d s with ⟨hi, -⟩ | ⟨-, e⟩
  · exact absurd hi h
  · exact e.trans (raise_regNumber_eq_withFault r s _)

/-- One can be added exactly below the greatest value (41_register_ops.md R98). -/
theorem inSignedRange_x_add_one_iff : inSignedRange (s.x r + 1) ↔ s.x r ≠ 2147483647 := by
  obtain ⟨hlo, hhi⟩ := x_inRange s r
  simp only [inSignedRange, Config.minReg, Config.maxReg] at *
  omega

end

/-- Settles O5: SET writes the cut of `v`, which reads as `v` for `v` in the signed range. -/
theorem setLoadsConstant : Obligations.SetLoadsConstant := by
  intro r v s hv
  have hword : (encode (.set r v)).toNat = r.toBit.toNat * 2 ^ 32 + (trunc v).toNat := by
    simp [encode, toNat_pack]
  exact ⟨hword, trunc v, sext_trunc (of_decide_eq_true hv),
    congrArg Host.Outcome.next (setReg_advance_eq_withRegPc r s _)⟩

/-- Settles O6: INC is the addition of one, whose sum leaves the signed range at the greatest value only. -/
theorem incAddsOneOrOverflows : Obligations.IncAddsOneOrOverflows := by
  intro r s
  have hword : (encode (.inc r)).toNat = 2 ^ 33 + r.toBit.toNat * 2 ^ 32 := by
    simp [encode, toNat_pack]
  refine ⟨hword, fun hx => ?_, fun hx => ?_⟩
  · obtain ⟨w, hw, e⟩ := addTo_of_inRange r s ((inSignedRange_x_add_one_iff r s).2 hx)
    exact ⟨w, hw, congrArg Host.Outcome.next e⟩
  · exact congrArg Host.Outcome.next
      (addTo_of_not_inRange r s fun h => (inSignedRange_x_add_one_iff r s).1 h hx)

/-! ### Exact results -/

/-- An addition leaves the exact sum, or raises RegisterOverflow, writes no register, and the sum is out of range
(41_register_ops.md R99). -/
theorem addTo_exact_or_overflow (r : Reg) (d : Int) (s : State) :
    (addTo r d s).x r = s.x r + d ∨
      ((addTo r d s).fault = .registerOverflow ∧ (addTo r d s).x r = s.x r ∧ ¬ inSignedRange (s.x r + d)) := by
  rcases addTo_cases r d s with ⟨hi, e⟩ | ⟨hn, e⟩ <;> rw [e]
  · left
    rw [advance_x, setReg_x_same]
    exact sext_trunc hi
  · exact .inr ⟨rfl, raise_x s _ _ r, hn⟩

/-- On a register that is not zero, DECJZ is the addition of minus one (42_control_transfer.md R104). -/
theorem exec_decjz_of_ne_zero {s : State} {r : Reg} (h : s.x r ≠ 0) (l : Label) :
    exec (.decjz r l) s = .next (addTo r (-1) s) :=
  congrArg Host.Outcome.next (if_neg (mt (isZero_iff s r).1 h))

/-! ### Unbounded registers, any widths -/

theorem unbounded_holds (p : Params) (v : Int) : p.unbounded.holds v = true := rfl

section
variable {p : Params} {s : NumState}

theorem num_step_of_ended (h : s.fault ≠ .none ∨ s.halted = true) : s.step p = s := by
  by_cases hf : s.fault = .none
  · exact num_step_of_halted hf (h.resolve_left (not_not.2 hf))
  · exact num_step_of_faulted hf

theorem num_iterate_of_faulted (h : s.fault ≠ .none) (n : Nat) : s.iterate p n = s := by
  induction n with
  | zero => rfl
  | succ n ih => rw [NumState.iterate, num_step_of_faulted h, ih]

/-- An addition that does not overflow is that of unbounded registers. -/
theorem num_addTo_unbounded {r : Reg} {d : Int} (h : (s.addTo p r d).fault ≠ .registerOverflow) :
    s.addTo p.unbounded r d = s.addTo p r d := by
  rcases num_addTo_cases p r d s with ⟨-, e⟩ | ⟨-, e⟩ <;> rw [e] at h ⊢
  · exact if_pos (unbounded_holds p _)
  · exact absurd rfl h

/-- Only the additions of INC and DECJZ ask whether a register can hold a value (41_register_ops.md R99). -/
theorem num_apply_unbounded {i : NumInstr} (h : (s.apply p i).fault ≠ .registerOverflow) :
    s.apply p.unbounded i = s.apply p i := by
  cases i with
  | inc r => exact num_addTo_unbounded h
  | decjz r l =>
    simp only [NumState.apply] at h ⊢
    split at h
    · rename_i hz
      rw [if_pos hz, if_pos hz]
      rfl
    · rename_i hz
      rw [if_neg hz, if_neg hz]
      exact num_addTo_unbounded h
  | set r v => rfl
  | goto l => rfl
  | print => rfl
  | halt => rfl

theorem num_execute_unbounded {w : Nat} (h : (s.execute p w).fault ≠ .registerOverflow) :
    s.execute p.unbounded w = s.execute p w := by
  have hdec : p.unbounded.decode w = p.decode w := rfl
  unfold NumState.execute at h ⊢
  rw [hdec]
  cases hd : p.decode w with
  | none => rfl
  | some i =>
    rw [hd] at h
    exact num_apply_unbounded h

/-- A step that leaves no RegisterOverflow latched is that of unbounded registers (00_scope.md R8). -/
theorem num_step_unbounded (h : (s.step p).fault ≠ .registerOverflow) : s.step p.unbounded = s.step p := by
  rcases num_step_cases p s with ⟨hs, e⟩ | ⟨hf, hh, hb, e⟩ | ⟨hf, hh, hb, hm, e⟩ | ⟨hf, hh, hb, hm, e⟩ <;> rw [e] at h ⊢
  · exact num_step_of_ended hs
  · exact num_step_of_outside hf hh hb
  · exact num_step_of_counter_full hf hh hb hm
  · exact (num_step_of_fetches (p := p.unbounded) hf hh hb hm).trans (num_execute_unbounded h)

/-- A RegisterOverflow stays latched, so no step of a run that ends without one raised it. -/
theorem num_iterate_unbounded {n : Nat} (h : (s.iterate p n).fault ≠ .registerOverflow) :
    s.iterate p.unbounded n = s.iterate p n := by
  induction n generalizing s with
  | zero => rfl
  | succ n ih =>
    have hstep : (s.step p).fault ≠ .registerOverflow := fun e => by
      rw [NumState.iterate, num_iterate_of_faulted (by simp [e])] at h
      exact h e
    rw [NumState.iterate, NumState.iterate, num_step_unbounded hstep]
    exact ih h

end

/-! ### Unbounded registers, the block -/

/-- `n` steps of the block are `n` steps of the reference widths (40_step_cycle.md R89). -/
theorem run_numbers {n : Nat} {s t : State} (h : Host.Core.run core n s = .next t) :
    s.numbers.iterate Params.reference n = t.numbers := by
  induction n generalizing s with
  | zero =>
    cases h
    rfl
  | succ n ih =>
    rw [run_succ] at h
    rw [NumState.iterate, stepped_numbers]
    exact ih h

/-- Settles O30: INC and DECJZ add exactly or overflow; the block runs as the reference widths do, and a run of any
widths that latches no RegisterOverflow is that of unbounded registers, step by step. -/
theorem agreesWithUnboundedRegisters : Obligations.AgreesWithUnboundedRegisters := by
  refine ⟨?_, ?_, ?_, fun p n s => num_iterate_unbounded⟩
  · intro r s t h _
    cases h
    exact addTo_exact_or_overflow r 1 s
  · intro r l s t h _ hx
    rw [exec_decjz_of_ne_zero hx] at h
    cases h
    exact addTo_exact_or_overflow r (-1) s
  · intro n s t h ht
    have hrun := run_numbers h
    exact (num_iterate_unbounded (by rwa [hrun])).trans hrun

end Sys2Proof.Machine
end

section
/-! SUPPORT. Control transfer (42_control_transfer.md): DECJZ is the jump of GOTO where the register is zero and the
addition of minus one elsewhere, so each branch's next state is that of the operation it shares. -/

namespace Sys2Proof.Machine

section
variable {s : State} {l : Label}

/-- Where the label has no target, a jump latches UnknownLabel(l) and nothing else (42_control_transfer.md R103). -/
theorem jump_of_no_target (h : labelLookup s l = none) : jump l s = s.withFault .unknownLabel (l.setWidth 36) := by
  rw [jump, h]
  exact congrArg (s.withFault .unknownLabel) (BitVec.ofNat_toNat 36 l)

theorem exec_of_jumpsBy_target {i : Instr} (hj : jumpsBy i s l) {target : SlotIndex}
    (ht : labelLookup s l = some target) : exec i s = .next { s with pc := target } :=
  (exec_of_jumpsBy hj).trans (congrArg Host.Outcome.next (jump_of_target ht))

theorem exec_of_jumpsBy_no_target {i : Instr} (hj : jumpsBy i s l) (hn : labelLookup s l = none) :
    exec i s = .next (s.withFault .unknownLabel (l.setWidth 36)) :=
  (exec_of_jumpsBy hj).trans (congrArg Host.Outcome.next (jump_of_no_target hn))

end

/-- One can be subtracted exactly above the least value (42_control_transfer.md R104). -/
theorem inSignedRange_x_sub_one_iff (r : Reg) (s : State) : inSignedRange (s.x r + -1) ↔ s.x r ≠ -2147483648 := by
  obtain ⟨hlo, hhi⟩ := x_inRange s r
  simp only [inSignedRange, Config.minReg, Config.maxReg] at *
  omega

/-- Settles O7: the zero branch is the jump to `l`; the other is the addition of minus one, whose sum leaves the signed
range at the least value only. -/
theorem decjzDecrementsOrJumps : Obligations.DecjzDecrementsOrJumps := by
  intro r l s
  have hword : (encode (.decjz r l)).toNat = 2 * 2 ^ 33 + r.toBit.toNat * 2 ^ 32 + l.toNat := by
    simp [encode, toNat_pack, toNat_zextLabel]
  have hjump (hz : s.x r = 0) : jumpsBy (.decjz r l) s l := .inr ⟨r, rfl, hz⟩
  refine ⟨hword, fun _ hz => exec_of_jumpsBy_target (hjump hz), fun hz => exec_of_jumpsBy_no_target (hjump hz),
    fun hz hmin => ?_, fun hmin => ?_⟩
  · obtain ⟨w, hw, e⟩ := addTo_of_inRange r s ((inSignedRange_x_sub_one_iff r s).2 hmin)
    exact ⟨w, hw, (exec_decjz_of_ne_zero hz l).trans (congrArg Host.Outcome.next e)⟩
  · have hz : s.x r ≠ 0 := by simp [hmin]
    have hout : ¬ inSignedRange (s.x r + -1) := fun h => (inSignedRange_x_sub_one_iff r s).1 h hmin
    exact (exec_decjz_of_ne_zero hz l).trans (congrArg Host.Outcome.next (addTo_of_not_inRange r s hout))

/-- Settles O8: GOTO is the jump to `l` from every state. -/
theorem gotoJumpsOrFaults : Obligations.GotoJumpsOrFaults := by
  intro l s
  have hword : (encode (.goto l)).toNat = 3 * 2 ^ 33 + l.toNat := by
    simp [encode, toNat_pack, toNat_zextLabel]
  exact ⟨hword, fun _ => exec_of_jumpsBy_target (.inl rfl), exec_of_jumpsBy_no_target (.inl rfl)⟩

end Sys2Proof.Machine
end

section
/-! SUPPORT. The system instructions (43_system.md): the events of a step and of a run, and the two kinds of halt. -/

namespace Sys2Proof.Machine

/-- Settles O9: PRINT emits `s.x .time`, which is the signed reading of TIME by definition. -/
theorem printObservesTime : Obligations.PrintObservesTime :=
  ⟨by decide, fun _ => rfl⟩

/-- Settles O10: HALT emits the halt event and sets `halted`, and writes no other field. -/
theorem haltStopsWithEvent : Obligations.HaltStopsWithEvent :=
  ⟨by decide, fun _ => rfl⟩

/-! ### The events of a step -/

section
variable {s t : State} (h : step s = .next t)
include h

/-- A PRINT that is fetched is counted and emits TIME (43_system.md R111). -/
theorem step_of_print (hf : s.fetches) (hat : s.atInstr .print) :
    t = (s.countStep.emit (.obs s.time.toInt)).advance :=
  (Host.Outcome.next.inj ((step_of_fetches hf hat.2).symm.trans h)).symm

/-- A HALT that is fetched is counted, emits the halt event and halts (43_system.md R112). -/
theorem step_of_halt (hf : s.fetches) (hat : s.atInstr .halt) : t = (s.countStep.emit .halt).setHalted :=
  (Host.Outcome.next.inj ((step_of_fetches hf hat.2).symm.trans h)).symm

theorem step_trace_of_not_fetches (hf : ¬ s.fetches) : t.trace = s.trace := by
  rcases step_cases_by_fetch h with ⟨-, rfl | rfl | rfl⟩ | ⟨hn, -⟩
  case inr => exact absurd hn hf
  all_goals rfl

/-- A fetched word that is neither PRINT nor HALT, legal or not, emits nothing (43_system.md R117). -/
theorem step_trace_of_fetches (hf : s.fetches) (hp : ¬ s.atInstr .print) (hh : ¬ s.atInstr .halt) :
    t.trace = s.trace := by
  cases hd : decode (fetchWord s s.pc) with
  | error e =>
    cases (step_of_illegal hf hd).symm.trans h
    rfl
  | ok i =>
    have hx : exec i s.countStep = .next t := (step_of_fetches hf hd).symm.trans h
    exact (exec_trace hx (fun e => hh ⟨hf.2.1, e ▸ hd⟩) (fun e => hp ⟨hf.2.1, e ▸ hd⟩) :)

/-- The three ways a step treats the trace: a fetched PRINT, a fetched HALT, and every other step (43_system.md R117). -/
theorem step_trace_cases :
    (s.fetches ∧ s.atInstr .print ∧ t = (s.countStep.emit (.obs s.time.toInt)).advance) ∨
    (s.fetches ∧ s.atInstr .halt ∧ t = (s.countStep.emit .halt).setHalted) ∨
    (¬ (s.fetches ∧ (s.atInstr .print ∨ s.atInstr .halt)) ∧ t.trace = s.trace) := by
  by_cases hf : s.fetches
  · by_cases hp : s.atInstr .print
    · exact .inl ⟨hf, hp, step_of_print h hf hp⟩
    · by_cases hh : s.atInstr .halt
      · exact .inr (.inl ⟨hf, hh, step_of_halt h hf hh⟩)
      · exact .inr (.inr ⟨fun hat => hat.2.elim hp hh, step_trace_of_fetches h hf hp hh⟩)
  · exact .inr (.inr ⟨fun hat => hf hat.1, step_trace_of_not_fetches h hf⟩)

end

/-- Settles O23: a step that emits is a fetched PRINT or HALT, which latches no fault; RESET and LOAD rewind, which keeps
the trace. -/
theorem eventsOfStep : Obligations.EventsOfStep := by
  refine ⟨fun s t h => ?_, ?_, ?_⟩
  · rcases step_trace_cases h with ⟨hf, hat, rfl⟩ | ⟨hf, hat, rfl⟩ | hsilent
    · exact .inl ⟨hf, hat, rfl, hf.1.1⟩
    · exact .inr (.inl ⟨hf, hat, rfl, hf.1.1⟩)
    · exact .inr (.inr hsilent)
  · rintro p q s t st ⟨n, h⟩
    cases h
    exact rewind_trace s
  · rintro img s t st ⟨n, h⟩
    cases h
    exact rewind_trace s

/-! ### The events of a run -/

/-- From any state, a run appends its events in order: a HALT ends the run, so no event follows a halt event. -/
theorem run_events {n : Nat} {s t : State} (h : Host.Core.run core n s = .next t) :
    ∃ l, t.trace = s.trace ++ l ∧ .halt ∉ l.dropLast ∧ (.halt ∈ l → t.isHalted) := by
  induction n generalizing s with
  | zero =>
    cases h
    exact ⟨[], by simp⟩
  | succ n ih =>
    rw [run_succ] at h
    obtain ⟨l, htrace, hlast, hend⟩ := ih h
    rcases step_trace_cases (step_eq_stepped s) with ⟨-, -, e⟩ | ⟨hf, -, e⟩ | ⟨-, e⟩
    · refine ⟨.obs s.time.toInt :: l, by simp [htrace, e], ?_, by simpa using hend⟩
      cases l with
      | nil => simp
      | cons ev l => simpa using hlast
    · rw [e, run_of_ended (.inl rfl)] at h
      cases h
      exact ⟨[.halt], by simp, by simp, fun _ => ⟨hf.1.1, rfl⟩⟩
    · exact ⟨l, by rw [htrace, e], hlast, hend⟩

/-- Settles O24: the case of a run that starts in Running. -/
theorem haltEventEndsTrace : Obligations.HaltEventEndsTrace := fun _ _ _ _ => run_events

/-! ### The two kinds of halt -/

/-- Settles O25: a step from Running that halts is the implicit halt or a fetched HALT; a step that raises a fault
leads to Faulted. -/
theorem haltKindsDistinguished : Obligations.HaltKindsDistinguished := by
  intro s t hrun h ht
  rcases step_cases h with ⟨hf, -⟩ | ⟨hh, -⟩ | ⟨-, hb, rfl⟩ | ⟨-, -, -, rfl⟩ | ⟨-, -, rfl⟩ | ⟨hf, -⟩
  · exact absurd hrun.1 hf
  · exact absurd hrun (not_running_of_ended (.inl hh.2))
  · exact .inr ⟨hb, rfl, rfl⟩
  · cases ht.1
  · cases ht.1
  · have hat : s.atInstr .halt := atInstr_halt_of_step_halted hf h ht.2
    cases step_of_halt h hf hat
    exact .inl ⟨hat, rfl, rfl⟩

end Sys2Proof.Machine
end

section
/-! SUPPORT. Faults (60_exceptions.md): that commands keep the invariant of the block, the state a fault leaves, the order
of the checks, and the step-budget property. -/

namespace Sys2Proof.Machine

/-! ### The invariant under the commands -/

section
variable {s t : State} {st : Status}

/-- A machine Running at slot 0, as a rewind leaves it, has the invariant where its memories are in canonical form
(60_exceptions.md R132). -/
theorem inv_of_rewound (hmem : s.memoryWf) (hrun : s.running) (hpc : s.pc = 0) (hinfo : s.faultInfo = 0) : s.Inv :=
  inv_of_running hmem hrun (.inl (by bv_omega)) hinfo

/-- The budget check records a budget that the step counter has reached (60_exceptions.md R124). -/
theorem stepLimitExceeded_explained {budget : Option StepCount} (hb : budgetSpent budget s = true) :
    (raise .stepLimitExceeded (budgetValue budget) s).faultExplained := by
  cases budget with
  | none => cases hb
  | some b => exact ⟨b, of_decide_eq_true hb, rfl⟩

theorem stepped_inv (hs : s.Inv) : (stepped s).Inv := invariantKeptByStep s _ hs (step_eq_stepped s)

/-- A RUN keeps the invariant in each of its iterations (40_step_cycle.md R92). -/
theorem runFor_inv {n : Nat} {budget : Option StepCount} (hs : s.Inv) (h : runFor n budget s = some (t, st)) : t.Inv := by
  induction n generalizing s with
  | zero => cases h
  | succ n ih =>
    rcases runIteration_cases budget s with ⟨-, e⟩ | ⟨-, e⟩ | ⟨hrun, hb, e⟩ | ⟨-, -, -, e⟩ | ⟨-, -, -, e⟩
    case inr.inr.inr.inr => exact ih (stepped_inv hs) ((runFor_of_again e n).symm.trans h)
    all_goals cases (runFor_of_returns e n).symm.trans h
    · exact hs
    · exact hs
    · exact inv_raise hs hrun (stepLimitExceeded_explained hb)
    · exact stepped_inv hs

end

/-- Settles O43: STEP by the invariant of a step, RUN by induction over its iterations, RESET and LOAD as rewinds. -/
theorem invariantKeptByCommands : Obligations.InvariantKeptByCommands := by
  rintro c s t st hload hs ⟨n, h⟩
  cases c with
  | step =>
    cases h
    exact stepped_inv hs
  | run budget => exact runFor_inv hs h
  | reset p q =>
    cases h
    exact inv_of_rewound hs.memories ⟨rfl, rfl⟩ rfl rfl
  | load img =>
    cases h
    exact inv_of_rewound (loadImage_memoryWf (hload img rfl) s) ⟨rfl, rfl⟩ rfl rfl

/-! ### The state at a fault -/

section
variable {s t : State}

/-- An instruction at `pc` that ends with a fault raised it, and nothing else, for a reason that stands at `pc`
(60_exceptions.md R123, R127). -/
theorem exec_raises {i : Instr} (hs : s.fault = .none) (hat : s.atInstr i) (h : exec i s = .next t) (ht : t.isFaulted) :
    ∃ c info, t = raise c info s ∧ (c = .unknownLabel ∨ c = .registerOverflow) ∧ t.faultExplained := by
  cases exec_cases h
  case unknownLabel l hj hn => exact ⟨_, _, rfl, .inl rfl, unknownLabel_explained hat hj hn⟩
  case overflow r ho => exact ⟨_, _, rfl, .inr rfl, registerOverflow_explained hat ho⟩
  all_goals exact absurd hs (by simpa using ht)

/-- A step from Running that ends with a fault found the step counter full, or counted and then raised another fault; either
way it wrote nothing else, and the fault is explained at `pc` (60_exceptions.md R129). -/
theorem step_raises (hrun : s.running) (h : step s = .next t) (ht : t.isFaulted) :
    t.faultExplained ∧ ((s.steps = Config.maxSteps ∧ t = raise .stepCounterOverflow 0 s) ∨
      (s.fetches ∧ ∃ c info, t = raise c info s.countStep ∧ c ≠ .stepCounterOverflow)) := by
  rcases step_cases h with ⟨hf, -⟩ | ⟨-, rfl⟩ | ⟨-, -, rfl⟩ | ⟨-, hb, hm, rfl⟩ | ⟨hf, he, rfl⟩ | ⟨hf, i, hd, hx⟩
  · exact absurd hrun.1 hf
  · exact absurd hrun.1 ht
  · exact absurd hrun.1 ht
  · exact ⟨⟨rfl, hm, hb⟩, .inl ⟨hm, rfl⟩⟩
  · exact ⟨⟨hf.2.1, by simp, he⟩, .inr ⟨hf, _, _, rfl, by simp⟩⟩
  · obtain ⟨c, info, rfl, hc, hex⟩ := exec_raises (s := s.countStep) hrun.1 ⟨hf.2.1, hd⟩ hx ht
    exact ⟨hex, .inr ⟨hf, c, info, rfl, by rcases hc with rfl | rfl <;> simp⟩⟩

end

/-- Settles O26: `raise` writes the latch only, so a fault differs from the state before it in the latch and, where the
step was counted, in `steps`. -/
theorem stateAtFault : Obligations.StateAtFault := by
  refine ⟨fun s t hrun h ht => ?_, fun b s hrun hb => runIteration_of_spent hrun (decide_eq_true hb)⟩
  have hprog : sameProgram s t := programImmutable s t h
  have hlimit : t.fault ≠ .stepLimitExceeded := step_fault_ne_stepLimitExceeded hrun.1 h
  obtain ⟨hex, ⟨hm, rfl⟩ | ⟨hf, c, info, rfl, hc⟩⟩ := step_raises hrun h ht
  · exact ⟨rfl, rfl, rfl, hrun.2, hprog, rfl, fun _ => ⟨rfl, congrArg BitVec.toNat hm⟩, fun hne => absurd rfl hne,
      hlimit, hex⟩
  · exact ⟨rfl, rfl, rfl, hrun.2, hprog, rfl, fun e => absurd e hc,
      fun _ => toNat_add_one_of_ne_maxSteps hf.2.2, hlimit, hex⟩

/-! ### A latched fault, and the order of the checks -/

section
variable {s t : State}

theorem runIteration_of_faulted (hs : s.isFaulted) (budget : Option StepCount) :
    runIteration budget s = .returns s (.faulted s.fault) := if_pos hs

/-- In Running inside the program, a step at the greatest count raises StepCounterOverflow (40_step_cycle.md R86). -/
theorem step_of_counter_full (hrun : s.running) (hb : s.pc < s.progLen) (hm : s.steps = Config.maxSteps) :
    step s = .next (s.withFault .stepCounterOverflow 0) := by
  obtain ⟨hfault, hhalted⟩ := hrun
  simp [step, issue, raise, hfault, hhalted, BitVec.not_le.2 hb, hm]

/-- A step that fetches raises IllegalInstruction exactly for an illegal word (60_exceptions.md R125). -/
theorem step_fault_eq_illegalInstruction_iff (hf : s.fetches) (h : step s = .next t) :
    t.fault = .illegalInstruction ↔ ∃ e, decode (fetchWord s s.pc) = .error e := by
  cases hd : decode (fetchWord s s.pc) with
  | error e =>
    cases (step_of_illegal hf hd).symm.trans h
    exact iff_of_true rfl ⟨e, rfl⟩
  | ok i =>
    refine iff_of_false ?_ (by simp)
    rcases exec_fault ((step_of_fetches hf hd).symm.trans h) with ⟨e, -⟩ | ⟨e | e, -⟩
    · simp [e, hf.1.1]
    · simp [e]
    · simp [e]

end

/-- Settles O18: the overflow check, its bound read as a number. -/
theorem stepCounterOverflowRaised : Obligations.StepCounterOverflowRaised := fun _ hrun hb hm =>
  step_of_counter_full hrun hb ((toNat_eq_counter_max_iff _).1 hm)

/-- Settles O27: a latched fault ends the run, so no step and no iteration of RUN does anything. -/
theorem faultStaysLatched : Obligations.FaultStaysLatched := fun s hs =>
  ⟨run_of_ended (.inr hs), (faultedStepRefused s hs).2,
    fun budget _ _ => run_completes_iff_of_returns (runIteration_of_faulted hs budget)⟩

/-- Settles O29: one equation for each check that fires, whatever the later ones would find. -/
theorem faultPriority : Obligations.FaultPriority :=
  ⟨fun budget _ hs => ⟨step_of_ended (.inr hs), runIteration_of_faulted hs budget⟩,
    fun _ _ hs => ⟨step_of_ended (.inl hs.2), runIteration_of_halted hs.1 hs.2⟩,
    fun _ _ hrun hb => ⟨_, runIteration_of_spent hrun (decide_eq_true hb), hrun.2⟩,
    fun _ hrun hb _ => step_of_outside hrun hb,
    fun _ => step_of_counter_full,
    fun _ _ => step_fault_eq_illegalInstruction_iff⟩

/-! ### The step budget -/

section
variable {s u : State} {n : Nat}

/-- A machine that is Running after some steps was Running before them (10_state.md R26). -/
theorem running_of_run (h : Host.Core.run core n s = .next u) (hu : u.running) : s.running := by
  by_contra hs
  have hend : s.ended := by
    by_cases hf : s.fault = .none
    · exact .inl (by simpa [hf] using hs)
    · exact .inr hf
  cases (run_of_ended hend n).symm.trans h
  exact hs hu

/-- A step that ends in Running fetches: every other step ends in Halted or Faulted (40_step_cycle.md R82 to R86). -/
theorem fetches_of_stepped_running (hu : (stepped s).running) : s.fetches := by
  rcases step_cases (step_eq_stepped s) with ⟨hf, e⟩ | ⟨⟨-, hh⟩, e⟩ | ⟨-, -, e⟩ | ⟨-, -, -, e⟩ | ⟨hf, -⟩ | ⟨hf, -⟩
  case inr.inr.inr.inr.inl | inr.inr.inr.inr.inr => exact hf
  all_goals
    obtain ⟨hfault, hhalted⟩ := e ▸ hu
  · exact absurd hfault hf
  · simp [hh] at hhalted
  · cases hhalted
  · cases hfault

theorem stepped_steps_of_running (hu : (stepped s).running) : (stepped s).steps.toNat = s.steps.toNat + 1 :=
  (stepsCountsFetches s _ (step_eq_stepped s)).1 (fetches_of_stepped_running hu)

/-- Each of `n` steps that end in Running counts (60_exceptions.md R138). -/
theorem run_steps (h : Host.Core.run core n s = .next u) (hu : u.running) : u.steps.toNat = s.steps.toNat + n := by
  induction n generalizing s with
  | zero =>
    cases h
    rfl
  | succ n ih =>
    rw [run_succ] at h
    rw [ih h, stepped_steps_of_running (running_of_run h hu)]
    omega

/-- As long as the budget is not used up, a RUN completes where the RUN from a later Running state does
(40_step_cycle.md R91, R92). -/
theorem run_completes_iff_of_run {b : StepCount} {t : State} {st : Status} (hb : s.steps.toNat + n ≤ b.toNat)
    (h : Host.Core.run core n s = .next u) (hu : u.running) :
    (Command.run (some b)).completes s t st ↔ (Command.run (some b)).completes u t st := by
  induction n generalizing s with
  | zero =>
    cases h
    rfl
  | succ n ih =>
    rw [run_succ] at h
    have hrun : (stepped s).running := running_of_run h hu
    have hcount := stepped_steps_of_running hrun
    have hspent : budgetSpent (some b) s = false := decide_eq_false fun hle => by
      have : b.toNat ≤ s.steps.toNat := hle
      omega
    rw [run_completes_iff_of_again (runIteration_of_no_fault (fetches_of_stepped_running hrun).1 hspent hrun.1)]
    exact ih (by omega) h

end

/-- Settles O39: the steps up to the budget are the iterations of the RUN, and its next check finds the budget used up. -/
theorem stepBudgetFailsAtBudget : Obligations.StepBudgetFailsAtBudget := by
  intro b s u _ hb h hu
  have hle : s.steps.toNat ≤ b.toNat := hb
  have hsteps : u.steps = b := BitVec.eq_of_toNat_eq (by rw [run_steps h hu]; omega)
  refine ⟨hsteps, fun t st => ?_⟩
  rw [run_completes_iff_of_run (by omega) h hu]
  exact (budgetCheckedBeforeStep b u hu).1 (hsteps ▸ BitVec.le_refl _) t st

end Sys2Proof.Machine
end

section
/-! SUPPORT. Reset and the ports (70_reset_and_hazards.md): what power-on, LOAD and RESET leave, the codes of the ports,
what each transition shows on them, and a RUN in progress. -/

namespace Sys2Proof.Machine

/-! ### The memories of a loaded image -/

/-- A label that the image does not list is invalid after LOAD (70_reset_and_hazards.md R150). -/
theorem read_labelTable_of_not_mem {entries : List (Label × SlotIndex)} {l : Label} (h : ∀ t, (l, t) ∉ entries) :
    Memory.read Config.unlistedLabel (labelTable entries) l.toNat = none := by
  induction entries with
  | nil => rfl
  | cons e entries ih =>
    have hne : l.toNat ≠ e.1.toNat := fun heq => h e.2 (by simp [BitVec.eq_of_toNat_eq heq])
    rw [labelTable, read_write_other _ _ hne]
    exact ih fun t ht => h t (.tail _ ht)

/-- A label that the image lists once has its target after LOAD (70_reset_and_hazards.md R150). -/
theorem read_labelTable_of_mem {entries : List (Label × SlotIndex)} (hd : (entries.map Prod.fst).Nodup) {l : Label}
    {t : SlotIndex} (h : (l, t) ∈ entries) :
    Memory.read Config.unlistedLabel (labelTable entries) l.toNat = some t := by
  induction entries with
  | nil => cases h
  | cons e entries ih =>
    obtain ⟨hnot, hd⟩ := List.nodup_cons.1 hd
    rcases List.mem_cons.1 h with rfl | h
    · exact read_write_same (labelTable_wf entries) _ _
    · have hne : l.toNat ≠ e.1.toNat := fun heq =>
        hnot (BitVec.eq_of_toNat_eq heq ▸ List.mem_map_of_mem (f := Prod.fst) h)
      rw [labelTable, read_write_other _ _ hne]
      exact ih hd h

theorem fetchWord_loadImage (img : Image) (s : State) {i : SlotIndex} (h : i.toNat < img.words.length) :
    fetchWord (loadImage img s) i = img.words[i.toNat] := by
  have := read_ofListFrom Config.unlistedWord 0 i.toNat img.words
  rwa [Nat.zero_add, List.getD_eq_getElem _ _ h] at this

/-- The words of an image the port can carry are counted by PROG_LEN (70_reset_and_hazards.md R149). -/
theorem toNat_loadImage_progLen {img : Image} (h : img.words.length ≤ Config.MAXLEN) (s : State) :
    (loadImage img s).progLen.toNat = img.words.length :=
  Nat.mod_eq_of_lt (Nat.lt_of_le_of_lt h (by decide))

/-! ### LOAD, RESET and power-on -/

section
variable {s t : State} {st : Status}

/-- LOAD always completes, in one state (70_reset_and_hazards.md R150). -/
theorem load_completes_iff {img : Image} :
    (Command.load img).completes s t st ↔ t = loadImage img s ∧ st = .ok := by
  simp [Command.completes, Command.perform, eq_comm]

/-- RESET always completes, in one state (70_reset_and_hazards.md R154). -/
theorem reset_completes_iff {p q : Word} :
    (Command.reset p q).completes s t st ↔ t = resetRegs p q s ∧ st = .ok := by
  simp [Command.completes, Command.perform, eq_comm]

end

/-- Settles O33: the memories are read back as the image lists them, and the other fields are those of the rewind. -/
theorem loadCommitsImage : Obligations.LoadCommitsImage := by
  intro img s h
  obtain ⟨hlen, hlabels⟩ := (image_wf_iff img).1 h
  exact ⟨loadImage img s, fun u st => load_completes_iff, toNat_loadImage_progLen hlen s,
    fun i => fetchWord_loadImage img s, fun l t => read_labelTable_of_mem hlabels,
    fun l => read_labelTable_of_not_mem, rfl, rfl, rfl, rfl, rfl, rfl, rfl, rfl⟩

/-- Settles O34: the state is `resetRegs p q s`, which is the one written out. -/
theorem resetRestartsProgram : Obligations.ResetRestartsProgram := fun _ _ _ _ _ => reset_completes_iff

/-- Settles O35: LOAD writes the program and RESET the registers, and both rewind. -/
theorem loadResetCommute : Obligations.LoadResetCommute := by
  intro img p q s a b c d hload hreset hreset' hload'
  obtain ⟨rfl, -⟩ := load_completes_iff.1 hload
  obtain ⟨rfl, -⟩ := reset_completes_iff.1 hreset
  obtain ⟨rfl, -⟩ := reset_completes_iff.1 hreset'
  obtain ⟨rfl, -⟩ := load_completes_iff.1 hload'
  rfl

/-- Settles O31: with rst the transition leads to the state after power-on. -/
theorem powerOnState : Obligations.PowerOnState := fun _ b h =>
  ⟨State.reset, idleOutputs State.reset, tick_powerOn h b, rfl, rfl, rfl, rfl, rfl, rfl, rfl, rfl, rfl, fun _ => rfl⟩

/-- Settles O32: slot 0 is outside the empty program, so the one step halts and the next iteration of RUN returns. -/
theorem powerOnHoldsEmptyProgram : Obligations.PowerOnHoldsEmptyProgram := by
  have hrun : State.reset.running := ⟨rfl, rfl⟩
  have hstep : step State.reset = .next State.reset.setHalted := step_of_outside hrun (BitVec.le_refl _)
  have hagain : runIteration none State.reset = .again State.reset.setHalted :=
    stepped_of_step hstep ▸ runIteration_of_no_fault hrun rfl (by rw [stepped_of_step hstep]; rfl)
  refine ⟨hrun, rfl, fun _ => rfl, hstep, (run_completes_iff_of_again hagain).2 ?_⟩
  exact (run_completes_iff_of_returns (runIteration_of_halted rfl rfl)).2 ⟨rfl, rfl⟩

/-! ### The codes of the ports -/

section
variable {p : PortInputs}

theorem command_of_zero (h : p.cmd = 0) : p.command = .step := by simp [PortInputs.command, h]

theorem command_of_one (h : p.cmd = 1) :
    p.command = .run (if p.budget_valid = 1 then some p.budget else none) := by simp [PortInputs.command, h]

theorem command_of_two (h : p.cmd = 2) : p.command = .reset p.seed_time p.seed_power := by
  simp [PortInputs.command, h]

theorem command_of_three (h : p.cmd = 3) : p.command = .load p.image := by simp [PortInputs.command, h]

end

/-- The bit of a flag, as `halted_q` shows it (70_reset_and_hazards.md R157). -/
theorem ofBool_eq_ite (b : Bool) : BitVec.ofBool b = if b then 1 else 0 := by cases b <;> rfl

/-- An observation is shown with the register's bits (43_system.md R115). -/
theorem beat_obs (w : Word) : (Event.obs w.toInt).beat = ⟨1, 1, w⟩ :=
  congrArg (EventBeat.mk 1 1) (trunc_sext w)

/-- Settles O36: the command of each code, and the other codes as they are defined. -/
theorem portCodes : Obligations.PortCodes := by
  refine ⟨fun _ => command_of_zero, fun p h hb => ?_, fun p h hb => ?_, fun _ => command_of_two,
    fun _ => command_of_three, by decide, ⟨rfl, rfl⟩, fun _ => ⟨rfl, rfl⟩, fun _ => ⟨rfl, rfl⟩,
    fun s => ⟨rfl, rfl, rfl, ofBool_eq_ite s.halted, rfl, rfl, rfl, rfl⟩, beat_obs, rfl⟩
  · simp [command_of_one h, hb]
  · simp [command_of_one h, hb]

/-! ### The events of a command -/

section
variable {s t : State} {st : Status}

theorem trace_extends_refl (s : State) : s.trace <+: s.trace := ⟨[], List.append_nil _⟩

/-- A step only adds to the trace (43_system.md R115). -/
theorem trace_extends_stepped (s : State) : s.trace <+: (stepped s).trace := by
  rcases step_trace_cases (step_eq_stepped s) with ⟨-, -, e⟩ | ⟨-, -, e⟩ | ⟨-, e⟩
  · exact ⟨[.obs s.time.toInt], by simp [e]⟩
  · exact ⟨[.halt], by simp [e]⟩
  · exact ⟨[], by simp [e]⟩

/-- A RUN only adds to the trace: each of its iterations does one step at most (40_step_cycle.md R92). -/
theorem trace_extends_of_runFor {n : Nat} {budget : Option StepCount} (h : runFor n budget s = some (t, st)) :
    s.trace <+: t.trace := by
  induction n generalizing s with
  | zero => cases h
  | succ n ih =>
    rcases runIteration_cases budget s with ⟨-, e⟩ | ⟨-, e⟩ | ⟨-, -, e⟩ | ⟨-, -, -, e⟩ | ⟨-, -, -, e⟩
    case inr.inr.inr.inr => exact (trace_extends_stepped s).trans (ih ((runFor_of_again e n).symm.trans h))
    all_goals cases (runFor_of_returns e n).symm.trans h
    · exact trace_extends_refl _
    · exact trace_extends_refl _
    · exact trace_extends_refl _
    · exact trace_extends_stepped s

/-- Every command only adds to the trace (43_system.md R115). -/
theorem trace_extends_of_completes {c : Command} (h : c.completes s t st) : s.trace <+: t.trace := by
  cases c with
  | step =>
    obtain ⟨rfl, -⟩ := (step_completes_iff (step_eq_stepped s)).1 h
    exact trace_extends_stepped s
  | run budget =>
    obtain ⟨n, h⟩ := h
    exact trace_extends_of_runFor h
  | reset p q =>
    obtain ⟨rfl, -⟩ := reset_completes_iff.1 h
    exact trace_extends_refl _
  | load img =>
    obtain ⟨rfl, -⟩ := load_completes_iff.1 h
    exact trace_extends_refl _

/-- One beat stands for each event added since `s` (43_system.md R115). -/
theorem beats_of_trace_extends (h : s.trace <+: t.trace) :
    ∃ l, t.trace = s.trace ++ l ∧ beatsBetween s t = l.map Event.beat := by
  obtain ⟨l, h⟩ := h
  exact ⟨l, h.symm, beatsBetween_append h.symm⟩

end

/-! ### What a transition shows -/

/-- With no command in progress and no rst, the command on the input ports is presented (70_reset_and_hazards.md R159). -/
theorem tick_presents {p : PortInputs} (h : p.rst = 0) (hv : p.cmd_valid = 1) (s : State) :
    (Block.mk s none).tick p = some (Block.present p.command s) := by
  simp [Block.tick, h, hv]

/-- A command presented completes with its outputs, or is a RUN that is in progress after one step. -/
theorem present_cases (c : Command) (s : State) :
    (∃ t st, c.completes s t st ∧ Block.present c s = (⟨t, none⟩, doneOutputs s t st)) ∨
    ∃ budget, c = .run budget ∧
      Block.present c s = (⟨stepped s, some budget⟩, progressOutputs s (stepped s)) := by
  cases c with
  | step => exact .inl ⟨_, _, ⟨0, rfl⟩, rfl⟩
  | run budget =>
    rcases runOn_cases budget s with ⟨t, st, hret, hon⟩ | ⟨-, hon⟩
    · exact .inl ⟨t, st, (run_completes_iff_of_returns hret).2 ⟨rfl, rfl⟩, hon⟩
    · exact .inr ⟨budget, rfl, hon⟩
  | reset p q => exact .inl ⟨_, _, ⟨0, rfl⟩, rfl⟩
  | load img => exact .inl ⟨_, _, ⟨0, rfl⟩, rfl⟩

/-- The first part of O51: what the ports show when a command is presented. -/
theorem outputs_of_presented {p : PortInputs} {s : State} {b : Block} {o : PortOutputs} (hr : p.rst = 0)
    (hv : p.cmd_valid = 1) (h : (Block.mk s none).tick p = some (b, o)) :
    (o.cmd_done = 1 ↔ b.running = none) ∧
    (b.running = none → ∃ st, p.command.completes s b.state st ∧ o.status = some st.number ∧
      o.status_code = st.faultCode ∧ o.snapshot = some b.state.snapshot) ∧
    (∃ l, b.state.trace = s.trace ++ l ∧ o.beats = l.map Event.beat) ∧
    ((∀ budget, p.command ≠ .run budget) → b.running = none) := by
  have hpresent : Block.present p.command s = (b, o) := Option.some.inj ((tick_presents hr hv s).symm.trans h)
  rcases present_cases p.command s with ⟨t, st, hc, e⟩ | ⟨budget, hc, e⟩
  · cases hpresent.symm.trans e
    exact ⟨iff_of_true rfl rfl, fun _ => ⟨st, hc, rfl, rfl, rfl⟩,
      beats_of_trace_extends (trace_extends_of_completes hc), fun _ => rfl⟩
  · cases hpresent.symm.trans e
    exact ⟨iff_of_false (by simp [progressOutputs]) (by simp), by simp,
      beats_of_trace_extends (trace_extends_stepped s), fun hne => absurd hc (hne budget)⟩

/-- Settles O51: a command presented by `outputs_of_presented`, a RUN in progress by the two ends of its iteration. -/
theorem completedTransactionOutputs : Obligations.CompletedTransactionOutputs := by
  refine ⟨fun p s b o hr hv => outputs_of_presented hr hv, fun q budget s hr hv => ?_⟩
  rw [tick_running hr hv]
  rcases runOn_cases budget s with ⟨t, st, hret, hon⟩ | ⟨hagain, hon⟩
  · have hc : (Command.run budget).completes s t st := (run_completes_iff_of_returns hret).2 ⟨rfl, rfl⟩
    obtain ⟨l, htrace, hbeats⟩ := beats_of_trace_extends (trace_extends_of_completes hc)
    refine ⟨_, _, l, congrArg some hon, iff_of_true rfl rfl, iff_of_true rfl ⟨t, st, hret⟩, fun t' st' h => ?_,
      fun hne => absurd rfl hne, htrace, hbeats⟩
    cases hret.symm.trans h
    exact ⟨rfl, hc, rfl, rfl, rfl⟩
  · obtain ⟨l, htrace, hbeats⟩ := beats_of_trace_extends (trace_extends_stepped s)
    exact ⟨_, _, l, congrArg some hon, iff_of_false (by simp [progressOutputs]) (by simp),
      iff_of_false (by simp) (by simp [hagain]), by simp [hagain], fun _ => ⟨rfl, step_eq_stepped s⟩, htrace, hbeats⟩

/-! ### A RUN in progress -/

section
variable {budget : Option StepCount} {s : State} {q : PortInputs} (hr : q.rst = 0) (hv : q.cmd_valid = 0)
include hr hv

/-- A RUN presented does what a RUN in progress does in a transition without input (log entry 15). -/
theorem tick_presented_run {p : PortInputs} (hpr : p.rst = 0) (hpv : p.cmd_valid = 1) (hc : p.command = .run budget) :
    (Block.mk s none).tick p = (Block.mk s (some budget)).tick q := by
  rw [tick_presents hpr hpv, hc, tick_running hr hv]
  rfl

/-- A RUN that has not returned within `n` iterations is in progress after `n` transitions without input, each of which did
one step and showed its events (70_reset_and_hazards.md R169). -/
theorem ticks_of_run_in_progress {n : Nat} (h : runFor n budget s = none) :
    ∃ (u : State) (os : List PortOutputs) (l : List Event),
      Block.ticks (List.replicate n q) ⟨s, some budget⟩ = some (⟨u, some budget⟩, os) ∧
      Host.Core.run core n s = .next u ∧ (∀ o ∈ os, o.cmd_done = 0) ∧
      u.trace = s.trace ++ l ∧ os.flatMap PortOutputs.beats = l.map Event.beat := by
  induction n generalizing s with
  | zero => exact ⟨s, [], [], rfl, rfl, by simp, by simp, rfl⟩
  | succ n ih =>
    rcases runOn_cases budget s with ⟨t, st, hret, -⟩ | ⟨hagain, hon⟩
    · cases (runFor_of_returns hret n).symm.trans h
    · obtain ⟨u, os, l, hticks, hrun, hdone, htrace, hbeats⟩ := ih ((runFor_of_again hagain n).symm.trans h)
      obtain ⟨l₁, htrace₁, hbeats₁⟩ := beats_of_trace_extends (trace_extends_stepped s)
      refine ⟨u, progressOutputs s (stepped s) :: os, l₁ ++ l, ?_, (run_succ n s).trans hrun, ?_, ?_, ?_⟩
      · simp [List.replicate_succ, Block.ticks, tick_running hr hv, hon, hticks]
      · exact List.forall_mem_cons.2 ⟨rfl, hdone⟩
      · rw [htrace, htrace₁, List.append_assoc]
      · rw [List.flatMap_cons, hbeats, List.map_append, ← hbeats₁]
        rfl

end

/-- Settles O52: the transition that presents the RUN is the first of the `n + 1` of a RUN in progress; what power-on and
another command do there holds of every RUN in progress. -/
theorem runPreemptedOnlyByPowerOn : Obligations.RunPreemptedOnlyByPowerOn := by
  intro p q budget n s hpr hpv hc hr hv h
  obtain ⟨u, os, l, hticks, hrun, hdone, htrace, hbeats⟩ := ticks_of_run_in_progress hr hv h
  refine ⟨u, os, l, ?_, hrun, hdone, htrace, hbeats, fun r hrst => tick_powerOn hrst _,
    fun r hrst hvalid => tick_overlap hrst hvalid u budget⟩
  rwa [List.replicate_succ, Block.ticks, ← tick_presented_run hr hv hpr hpv hc] at hticks

end Sys2Proof.Machine
end
